-- ==== Sys2Proof/Word.lean ====
section
/-! DEFINITION. The word types of CA8: a byte (spec/00_scope.md R10) and the one bit of the flags register (spec/10_state.md R28). -/

namespace Sys2Proof

/-- A register value, a memory cell, an operand byte or an immediate: unsigned, `[0, 256)` (R10). -/
abbrev Byte := BitVec 8

/-- The one modelled bit of FL, the values 0 and 1 only (R28). -/
abbrev Bit := BitVec 1

/-- A register index that has passed the range check `[0, 8)` (R20). -/
abbrev RegIdx := Fin 8

end Sys2Proof
end

