-- ==== Sys2Proof/Config.lean ====
section
/-! DEFINITION. The implementation parameters of spec/00_scope.md R6, and the open values of the host's side (spec/60_exceptions.md R158). -/

namespace Sys2Proof

/-- `MEM_SIZE`, the number of memory cells (R6). -/
def Config.memSize : Nat := 256

/-- `SP_INDEX`, the register that serves as the stack pointer (R6, R22). -/
def Config.spIndex : RegIdx := 7

/-- `SP_INIT`, the stack pointer at reset in the reference layout (R6, R23). UNVERIFIED: the spec calls the literal
unaudited (log entry 3). -/
def Config.spInit : Byte := 0xF4#8

/-- `PC_INIT` (R6, R27). -/
def Config.pcInit : Nat := 0

/-- `FL_INIT` (R6, R28). -/
def Config.flInit : Bit := 0#1

/-- What every memory cell holds before anything is loaded or written (R30: zero-initialized). -/
def Config.memInit : Byte := 0#8

/-- The parameters that a statement about reset is made for every value of: `GPR_INIT`, which the spec leaves OPEN
(R24), and `SP_INIT`, which it keeps as a named argument (R23). -/
structure Config.Params where
  gprInit : Vector Byte 7
  spInit  : Byte
deriving DecidableEq, Repr

/-- The parameters `State.reset` takes. DESIGN CHOICE, unsafe: r0..r6 start at 0, which R24 allows a deterministic
simulator to take (log entry 2). -/
def Config.reference : Config.Params :=
  { gprInit := #v[0#8, 0#8, 0#8, 0#8, 0#8, 0#8, 0#8], spInit := Config.spInit }

/-- `HALT_EXIT_CODE`, OPEN (R158, D18): the host's exit code of a run that ended HALTED. -/
opaque Config.haltExitCode : Nat

/-- One less than `FAULT_EXIT_CODE`, OPEN (R158, D18). -/
opaque Config.faultExitCodePred : Nat

/-- `FAULT_EXIT_CODE`: any number but 0 (R158, D18). -/
def Config.faultExitCode : Nat := Config.faultExitCodePred + 1

/-- The one-line diagnostic the host prints for a fault of cause code `code` at address `pc` with datum `value`, for
the faults whose text the spec does not give (R158): a free value. -/
opaque Config.faultDiagnostic : (code : Nat) → (pc : Nat) → (value : Int) → String

end Sys2Proof
end

