-- ==== Sys2Proof/Machine/State.lean ====
section
/-! DEFINITION. The state of the machine (spec/10_state.md R35), the reasons a step can stop, and the state after reset (spec/70_reset_and_hazards.md R170). -/

namespace Sys2Proof.Machine

/-- The fault kinds of R146. -/
inductive FaultKind where
  | unknownOpcode
  | addressOutOfRange
  | registerIndexOutOfRange
  | stackPointerOutOfRange
  | unsupportedAluOp
deriving DecidableEq, Repr

/-- What a fault records (R147): the PC of the step that faulted and the datum of R146. -/
structure FaultInfo where
  pc    : Nat
  value : Int
deriving DecidableEq, Repr

/-- The run status (R31). `halted` and `faulted` are terminal. -/
inductive Status where
  | running
  | halted
  | faulted (kind : FaultKind) (info : FaultInfo)
deriving DecidableEq, Repr

/-- An output event (R33): a byte to print as a decimal number, or as a character code. -/
inductive OutEvent where
  | outDec (v : Byte)
  | outChar (v : Byte)
deriving DecidableEq, Repr

/-- The memory cells that differ from their reset value 0, by address (R30; log entry 5). -/
abbrev Memory := List Host.Cell

/-- The complete state (R35). -/
structure State where
  /-- r0..r7, r7 = SP (R20-R24) -/
  x      : Vector Byte 8
  /-- program counter, never wrapped (R25-R27) -/
  pc     : Nat
  /-- the equal flag `fl.E` (R28, R29) -/
  flE    : Bit
  /-- memory (R30) -/
  mem    : Memory
  /-- run status (R31) -/
  status : Status
  /-- output channel, oldest event first (R33) -/
  out    : List OutEvent
deriving DecidableEq, Repr

/-- Why the machine has no step. A condition the spec calls fatal is not one of these: it is a next state whose status
is `faulted` (R91, R150), and these are what `step` answers in the terminal states. -/
inductive Fault where
  /-- Raised by `step` in a state whose status is HALTED: "No step is defined" (R89). Safe: no state is claimed. -/
  | noStepFromHalted
  /-- Raised by `step` in a state whose status is FAULTED(kind, info) (R89). Safe: no state is claimed. -/
  | noStepFromFaulted (kind : FaultKind) (info : FaultInfo)
deriving DecidableEq, Repr

/-- Why the model gives no answer. -/
inductive Refusal where
  /-- An instruction without a meaning; no arm of `exec` raises it. Safe. -/
  | notModelled (mnemonic : String)
  /-- Raised by `load` on an image of more than 256 bytes: "the spec refuses such a load, so no run starts"
  (R172). Safe. -/
  | imageTooLong (length : Nat)
deriving DecidableEq, Repr

/-- The three outcomes of a step. -/
abbrev Result := Host.Outcome State Fault Refusal

/-- The state after reset for given values of the parameters the spec leaves open or names (R170). -/
def State.resetWith (p : Config.Params) : State :=
  { x      := p.gprInit.push p.spInit
    pc     := Config.pcInit
    flE    := Config.flInit
    mem    := []
    status := .running
    out    := [] }

/-- The state after reset, before an image is loaded (R170), with the parameters of `Config.reference`. -/
def State.reset : State := State.resetWith Config.reference

end Sys2Proof.Machine
end

