-- ==== Sys2Proof/Machine/Ops.lean ====
section
/-! DEFINITION. The pseudocode primitives of spec/00_scope.md R11: registers, the program counter, memory through the address decoder, output, and `raise`, the one way a step faults (spec/60_exceptions.md R146, R147, R150). -/

namespace Sys2Proof.Machine

/-! ### Registers, program counter, output -/

/-- `x[i]` -/
def State.getReg (s : State) (i : RegIdx) : Byte := s.x.get i

/-- `x[i] <- v` -/
def State.setReg (s : State) (i : RegIdx) (v : Byte) : State := { s with x := s.x.set i.val v i.isLt }

/-- `sp`, shorthand for `x[7]` (R11, R22). -/
def State.sp (s : State) : Byte := s.getReg Config.spIndex

/-- `x[7] <- v` -/
def State.setSp (s : State) (v : Byte) : State := s.setReg Config.spIndex v

/-- `pc <- target` -/
def State.setPc (s : State) (target : Nat) : State := { s with pc := target }

/-- `pc <- pc + n`, never reduced (R26, R27). -/
def State.advance (s : State) (n : Nat) : State := s.setPc (s.pc + n)

/-- `pc <- v`, the address in a register (R134). -/
def State.jumpTo (s : State) (v : Byte) : State := s.setPc v.toNat

/-- `Emit(e)`: append to the `out` channel (R33). -/
def State.emit (s : State) (e : OutEvent) : State := { s with out := s.out ++ [e] }

/-- `status <- st` -/
def State.setStatus (s : State) (st : Status) : State := { s with status := st }

/-! ### Faults -/

/-- What a check raises: the kind of R146 and its datum. -/
structure Raise where
  kind  : FaultKind
  value : Int
deriving DecidableEq, Repr

/-- Fault entry, the one shared operation (R150, R151): the state before the step with only `status` changed, and
`info.pc` the PC of the faulting step (R147). There is no return from a fault (R152). -/
def State.takeFault (s : State) (r : Raise) : State :=
  s.setStatus (.faulted r.kind { pc := s.pc, value := r.value })

/-- Go on with what a check answers, or end the step with the fault it raises, taken in the state `pre` before the step
(R11: every check precedes the first write). -/
def attempt {α : Type} (pre : State) (check : Except Raise α) (k : α → Result) : Result :=
  match check with
  | .ok a => k a
  | .error r => .next (pre.takeFault r)

/-- The cause codes of R146. -/
def FaultKind.code : FaultKind → Nat
  | .unknownOpcode => 1
  | .addressOutOfRange => 2
  | .registerIndexOutOfRange => 3
  | .stackPointerOutOfRange => 4
  | .unsupportedAluOp => 5

/-! ### The address decoder -/

/-- `MemRead(addr, 1)` (R40): fails at an address of 256 or more, never wraps. -/
def memRead (addr : Nat) (s : State) : Except Raise Byte :=
  if Config.memSize ≤ addr then .error { kind := .addressOutOfRange, value := addr }
  else .ok (s.mem.read addr)

/-- `MemWrite(addr, 1, v)` (R40). -/
def memWrite (addr : Nat) (v : Byte) (s : State) : Except Raise State :=
  if Config.memSize ≤ addr then .error { kind := .addressOutOfRange, value := addr }
  else .ok { s with mem := s.mem.write addr v }

/-! ### Checks -/

/-- `checkReg(i)` (R88): the register an operand byte selects, never reduced modulo 8. -/
def checkReg (i : Byte) : Except Raise RegIdx :=
  if h : i.toNat < 8 then .ok ⟨i.toNat, h⟩
  else .error { kind := .registerIndexOutOfRange, value := i.toNat }

/-- The SP range check (R127): SP is about to become `v`, which must stay in `[0, 256)`. -/
def checkSp (v : Int) : Except Raise Unit :=
  if 0 ≤ v ∧ v < 256 then .ok () else .error { kind := .stackPointerOutOfRange, value := v }

end Sys2Proof.Machine
end

