-- ==== Sys2Proof/Machine/Flags.lean ====
section
/-! DEFINITION. The equal flag: the one computation that writes it and the two tests that read it (spec/10_state.md R29). -/

namespace Sys2Proof.Machine

/-- The equal flag after a comparison: set on equality, otherwise left as it was, never cleared (R29, R103). -/
def equalFlag (e : Bit) (va vb : Byte) : Bit := if va = vb then 1#1 else e

/-- `fl.E <- e` -/
def State.setFlE (s : State) (e : Bit) : State := { s with flE := e }

/-- The condition of JEQ: `fl.E = 1` (R137). -/
def State.equalSet (s : State) : Bool := decide (s.flE = 1#1)

/-- The condition of JNE: `fl.E = 0` (R139). -/
def State.equalClear (s : State) : Bool := decide (s.flE = 0#1)

end Sys2Proof.Machine
end

