-- ==== Sys2Proof/Machine/Operands.lean ====
section
/-! DEFINITION. The operand forms of spec/30_encoding.md R61: each checks the register operands its format names, A before B, before anything else the instruction does (spec/40_loop_and_dispatch.md R90). -/

namespace Sys2Proof.Machine

/-- Format N: no operand, nothing to check. -/
def formN (k : Result) : Result := k

/-- Format R: operand A is a register. -/
def formR (a : Byte) (s : State) (k : RegIdx → Result) : Result := attempt s (checkReg a) k

/-- Format RR: operands A and B are registers, A checked first. -/
def formRR (a b : Byte) (s : State) (k : RegIdx → RegIdx → Result) : Result :=
  attempt s (checkReg a) fun ra => attempt s (checkReg b) fun rb => k ra rb

/-- Format RI: operand A is a register, operand B is the immediate itself, not checked or extended (R62). -/
def formRI (a imm : Byte) (s : State) (k : RegIdx → Byte → Result) : Result := attempt s (checkReg a) fun ra => k ra imm

end Sys2Proof.Machine
end

