-- ==== Sys2Proof/Machine/Alu.lean ====
section
/-! DEFINITION. The ALU (spec/41_alu.md R100-R105) and the instructions that go through it, MUL and CMP. -/

namespace Sys2Proof.Machine

/-- The operation selector: ADD, MUL, CMP, and any other value a caller could pass (R100, R104). DESIGN CHOICE: another
value is named by an integer, since the spec gives the selector no encoding (log entry 12). -/
inductive AluOp where
  | add
  | mul
  | cmp
  | other (sel : Int)
deriving DecidableEq, Repr

/-- A mathematical integer reduced modulo 256 (R105). -/
def wrapByte (n : Nat) : Byte := BitVec.ofNat 8 n

/-- `ALU(sel, a, b)` (R100): the state after it, and the value it returns to its caller, which only MUL has (R102). Both
registers are read before any write. -/
def alu (sel : AluOp) (a b : RegIdx) (s : State) : Except Raise (State × Option Byte) :=
  let va := s.getReg a
  let vb := s.getReg b
  match sel with
  | .add => .ok (s.setReg a (wrapByte (va.toNat + vb.toNat)), none)
  | .mul =>
    let r := wrapByte (va.toNat * vb.toNat)
    .ok (s.setReg a r, some r)
  | .cmp => .ok (s.setFlE (equalFlag s.flE va vb), none)
  | .other sel => .error { kind := .unsupportedAluOp, value := sel }

/-- MUL rA, rB (R106). -/
def execMul (a b : Byte) (s : State) : Result :=
  formRR a b s fun ra rb => attempt s (alu .mul ra rb s) fun r => .next (r.1.advance 3)

/-- CMP rA, rB (R108). -/
def execCmp (a b : Byte) (s : State) : Result :=
  formRR a b s fun ra rb => attempt s (alu .cmp ra rb s) fun r => .next (r.1.advance 3)

end Sys2Proof.Machine
end

