-- ==== Sys2Proof/Machine/Control.lean ====
section
/-! DEFINITION. Control transfer, JMP, JEQ, JNE (spec/44_control_transfer.md), and HLT (spec/40_loop_and_dispatch.md R84). -/

namespace Sys2Proof.Machine

/-- A conditional jump: the register is checked on both paths (R90), then PC is replaced or moves past the
instruction. -/
def jumpIf (taken : Bool) (a : Byte) (s : State) : Result :=
  formR a s fun ra => .next (if taken then s.jumpTo (s.getReg ra) else s.advance 2)

/-- JMP rA (R135). -/
def execJmp (a : Byte) (s : State) : Result := formR a s fun ra => .next (s.jumpTo (s.getReg ra))

/-- JEQ rA (R137). -/
def execJeq (a : Byte) (s : State) : Result := jumpIf s.equalSet a s

/-- JNE rA (R139). -/
def execJne (a : Byte) (s : State) : Result := jumpIf s.equalClear a s

/-- HLT (R84): PC keeps the address of the HLT opcode. -/
def execHlt (s : State) : Result := formN (.next (s.setStatus .halted))

end Sys2Proof.Machine
end

