-- ==== Sys2Proof/Machine/LoadOutput.lean ====
section
/-! DEFINITION. Load immediate and output: LDI, PRN, PRA (spec/42_load_and_output.md). -/

namespace Sys2Proof.Machine

/-- LDI rA, imm (R115). -/
def execLdi (a imm : Byte) (s : State) : Result :=
  formRI a imm s fun ra v => .next ((s.setReg ra v).advance 3)

/-- PRN rA (R117). -/
def execPrn (a : Byte) (s : State) : Result :=
  formR a s fun ra => .next ((s.emit (.outDec (s.getReg ra))).advance 2)

/-- PRA rA (R119). -/
def execPra (a : Byte) (s : State) : Result :=
  formR a s fun ra => .next ((s.emit (.outChar (s.getReg ra))).advance 2)

end Sys2Proof.Machine
end

