-- ==== Sys2Proof/Machine/Stack.lean ====
section
/-! DEFINITION. The stack instructions PUSH and POP (spec/43_stack.md). -/

namespace Sys2Proof.Machine

/-- The state after PUSH's first statement, `x[7] <- x[7] - 1` (R125). -/
def State.decSp (s : State) : State := s.setSp (s.sp - 1#8)

/-- The state after POP's second statement, `x[7] <- x[7] + 1` of the current `x[7]` (R128). -/
def State.incSp (s : State) : State := s.setSp (s.sp + 1#8)

/-- The address PUSH stores to: SP after the pre-decrement (R124, R125). -/
def pushAddr (s : State) : Nat := s.decSp.sp.toNat

/-- The value PUSH stores: `x[A]` read after the decrement, so PUSH SP stores the decremented SP (R125, D22). -/
def pushValue (ra : RegIdx) (s : State) : Byte := s.decSp.getReg ra

/-- The SP that POP's two statements leave, as a number before any reduction (R128). -/
def popNewSp (ra : RegIdx) (popped : Byte) (s : State) : Nat :=
  (if ra = Config.spIndex then popped else s.sp).toNat + 1

/-- PUSH rA (R125). -/
def execPush (a : Byte) (s : State) : Result :=
  formR a s fun ra =>
    attempt s (checkSp ((s.sp.toNat : Int) - 1)) fun _ =>
      attempt s (memWrite (pushAddr s) (pushValue ra s) s.decSp) fun t => .next (t.advance 2)

/-- POP rA (R128). -/
def execPop (a : Byte) (s : State) : Result :=
  formR a s fun ra =>
    attempt s (memRead s.sp.toNat s) fun v =>
      attempt s (checkSp (popNewSp ra v s)) fun _ => .next ((s.setReg ra v).incSp.advance 2)

end Sys2Proof.Machine
end

