-- ==== Sys2Proof/Syntax.lean ====
section
/-! DEFINITION. The instructions of CA8, one constructor per row of spec/opcode_table.json, and their formats (spec/30_encoding.md R61, R64). -/

namespace Sys2Proof

/-- The four instruction formats of R61. -/
inductive Format where
  /-- no operand, 1 byte -/
  | n
  /-- one register, 2 bytes -/
  | r
  /-- two registers, 3 bytes -/
  | rr
  /-- register and immediate, 3 bytes -/
  | ri
deriving DecidableEq, Repr

/-- How many bytes an instruction of a format occupies (R61). -/
def Format.length : Format → Nat
  | .n  => 1
  | .r  => 2
  | .rr => 3
  | .ri => 3

/-- An instruction with its operand bytes as they stand in memory. A register operand is a whole byte: one of 8 or more
is a legal encoding whose execution faults (R62), so the byte is kept and `execX` checks it. -/
inductive Instr where
  /-- R115 -/
  | ldi (a imm : Byte)
  /-- R117 -/
  | prn (a : Byte)
  /-- R106 -/
  | mul (a b : Byte)
  /-- R125 -/
  | push (a : Byte)
  /-- R128 -/
  | pop (a : Byte)
  /-- R108 -/
  | cmp (a b : Byte)
  /-- R135 -/
  | jmp (a : Byte)
  /-- R137 -/
  | jeq (a : Byte)
  /-- R139 -/
  | jne (a : Byte)
  /-- R119 -/
  | pra (a : Byte)
  /-- R84 -/
  | hlt
deriving DecidableEq, Repr

/-- The format of an instruction (R61, R64). -/
def Instr.format : Instr → Format
  | .ldi _ _ => .ri
  | .prn _   => .r
  | .mul _ _ => .rr
  | .push _  => .r
  | .pop _   => .r
  | .cmp _ _ => .rr
  | .jmp _   => .r
  | .jeq _   => .r
  | .jne _   => .r
  | .pra _   => .r
  | .hlt     => .n

/-- The bytes an instruction occupies (R61). -/
def Instr.length (i : Instr) : Nat := i.format.length

/-- The register operands an instruction names, in the order they are checked: operand A of formats R, RR and RI,
operand B of format RR only (R90). -/
def Instr.regOperands : Instr → List Byte
  | .ldi a _ => [a]
  | .prn a   => [a]
  | .mul a b => [a, b]
  | .push a  => [a]
  | .pop a   => [a]
  | .cmp a b => [a, b]
  | .jmp a   => [a]
  | .jeq a   => [a]
  | .jne a   => [a]
  | .pra a   => [a]
  | .hlt     => []

end Sys2Proof
end

