-- ==== Sys2Proof/WellFormed.lean ====
section
/-! DEFINITION. Which instructions name only registers that exist (spec/30_encoding.md R62: a register operand "must be in [0, 8)"). -/

namespace Sys2Proof

/-- Every register operand is below 8. LDI's immediate and unused operand bytes are not checked (R62, R63). -/
def Instr.wf (i : Instr) : Bool := i.regOperands.all fun b => decide (b.toNat < 8)

end Sys2Proof
end

