-- ==== Sys2Proof/Decode.lean ====
section
/-! DEFINITION. The decoder and the encoder, from the one opcode map of spec/30_encoding.md R64. -/

namespace Sys2Proof

/-- Why bytes are no instruction. Both are safe: nothing is decoded. -/
inductive DecodeError where
  /-- The opcode byte is none of the eleven of R64; the machine faults `UnknownOpcode` on it (R67, R86). -/
  | unknownOpcode (op : Byte)
  /-- A byte list ends before the instruction's last byte. Only `decode` on a list raises it: the machine always has
  three bytes or faults at the fetch. -/
  | truncated
deriving DecidableEq, Repr

/-- A row of the handler table: the opcode byte, its name, its format, and the instruction it makes of the two operand
bytes. The table is configuration, not state (R34). -/
structure OpRow where
  opcode   : Byte
  mnemonic : String
  format   : Format
  build    : Byte → Byte → Instr

/-- The row of HLT, which the loop recognizes itself and which is not in the handler table (R64, R83). -/
def hltRow : OpRow := { opcode := 0b00000001#8, mnemonic := "HLT", format := .n, build := fun _ _ => .hlt }

/-- The fixed ten-entry handler table, in the order of R64. -/
def handlerTable : List OpRow :=
  [ { opcode := 0b10000010#8, mnemonic := "LDI",  format := .ri, build := fun a b => .ldi a b },
    { opcode := 0b01000111#8, mnemonic := "PRN",  format := .r,  build := fun a _ => .prn a },
    { opcode := 0b10100010#8, mnemonic := "MUL",  format := .rr, build := fun a b => .mul a b },
    { opcode := 0b01000101#8, mnemonic := "PUSH", format := .r,  build := fun a _ => .push a },
    { opcode := 0b01000110#8, mnemonic := "POP",  format := .r,  build := fun a _ => .pop a },
    { opcode := 0b10100111#8, mnemonic := "CMP",  format := .rr, build := fun a b => .cmp a b },
    { opcode := 0b01010100#8, mnemonic := "JMP",  format := .r,  build := fun a _ => .jmp a },
    { opcode := 0b01010101#8, mnemonic := "JEQ",  format := .r,  build := fun a _ => .jeq a },
    { opcode := 0b01010110#8, mnemonic := "JNE",  format := .r,  build := fun a _ => .jne a },
    { opcode := 0b01001000#8, mnemonic := "PRA",  format := .r,  build := fun a _ => .pra a } ]

/-- The row an opcode byte selects by exact match of all eight bits: the halt test first, then the handler table
(R64, R83, R85). -/
def rowOf (op : Byte) : Option OpRow :=
  if op = hltRow.opcode then some hltRow else handlerTable.find? fun r => r.opcode == op

/-- The instruction in a fetched window (R60): total, and rejecting an unknown opcode by name (R67). -/
def decodeWindow (op a b : Byte) : Except DecodeError Instr :=
  match rowOf op with
  | some r => .ok (r.build a b)
  | none => .error (.unknownOpcode op)

/-- The instruction at the head of a byte list, with the bytes after it; its length is known from the opcode alone
(R65). -/
def decode : List Byte → Except DecodeError (Instr × List Byte)
  | [] => .error .truncated
  | op :: rest =>
    match rowOf op with
    | none => .error (.unknownOpcode op)
    | some r =>
      if rest.length < r.format.length - 1 then .error .truncated
      else .ok (r.build (rest.getD 0 0#8) (rest.getD 1 0#8), rest.drop (r.format.length - 1))

/-- The opcode byte of an instruction (R64). -/
def Instr.opcode : Instr → Byte
  | .ldi _ _ => 0x82#8
  | .prn _   => 0x47#8
  | .mul _ _ => 0xA2#8
  | .push _  => 0x45#8
  | .pop _   => 0x46#8
  | .cmp _ _ => 0xA7#8
  | .jmp _   => 0x54#8
  | .jeq _   => 0x55#8
  | .jne _   => 0x56#8
  | .pra _   => 0x48#8
  | .hlt     => 0x01#8

/-- The bytes of an instruction, lowest address first: the opcode and the operand bytes of its format, nothing else
(R47, R61). -/
def encode (i : Instr) : List Byte :=
  i.opcode ::
    match i with
    | .ldi a imm => [a, imm]
    | .prn a   => [a]
    | .mul a b => [a, b]
    | .push a  => [a]
    | .pop a   => [a]
    | .cmp a b => [a, b]
    | .jmp a   => [a]
    | .jeq a   => [a]
    | .jne a   => [a]
    | .pra a   => [a]
    | .hlt     => []

/-- Byte `k` of a table word of `nbits` bits: bit 0 of the word is bit 0 of the first byte, and the bits above `nbits`
are 0. -/
def tableByte (nbits w k : Nat) : Byte := BitVec.ofNat 8 ((w % 2 ^ nbits) / 2 ^ (8 * k))

/-- The instruction the decoder reads from a word of spec/opcode_table.json, laid out as an instruction window. -/
def decodeTableWord (nbits w : Nat) : Option Instr :=
  match decodeWindow (tableByte nbits w 0) (tableByte nbits w 1) (tableByte nbits w 2) with
  | .ok i => some i
  | .error _ => none

end Sys2Proof
end

