-- ==== Sys2Proof/Machine/Loop.lean ====
section
/-! DEFINITION. The execution loop: the three-byte fetch (spec/40_loop_and_dispatch.md R82), the unknown-opcode fault (R86) and one whole cycle (R91), over whatever runs a decoded instruction. -/

namespace Sys2Proof.Machine

/-- The instruction window (R60). -/
structure Window where
  op : Byte
  a  : Byte
  b  : Byte
deriving DecidableEq, Repr

/-- The fetch (R82): three reads, always, in ascending address order; the first address out of range is reported. -/
def fetch (s : State) : Except Raise Window :=
  match memRead s.pc s with
  | .error r => .error r
  | .ok op =>
    match memRead (s.pc + 1) s with
    | .error r => .error r
    | .ok a =>
      match memRead (s.pc + 2) s with
      | .error r => .error r
      | .ok b => .ok { op := op, a := a, b := b }

/-- The instruction a window holds, or the fault of an unknown opcode (R86). -/
def decoded (w : Window) : Except Raise Instr :=
  match decodeWindow w.op w.a w.b with
  | .ok i => .ok i
  | .error _ => .error { kind := .unknownOpcode, value := w.op.toNat }

/-- One cycle of the loop (R80, R91), with `run` the dispatcher's handlers and HLT. There is no step from a terminal
state (R89). -/
def cycle (run : Instr → State → Result) (s : State) : Result :=
  match s.status with
  | .running => attempt s (fetch s) fun w => attempt s (decoded w) fun i => run i s
  | .halted => .fault .noStepFromHalted
  | .faulted kind info => .fault (.noStepFromFaulted kind info)

/-- The instruction the next step executes: that of the window at PC, when the machine is running and the fetch and the
decoding succeed. -/
def executing (s : State) : Option Instr :=
  match s.status, fetch s with
  | .running, .ok w => (decoded w).toOption
  | _, _ => none

/-- Store bytes from an address on, leaving out those that fall outside memory. -/
def placeBytes (s : State) (addr : Nat) (bs : List Byte) : State :=
  { s with mem := s.mem.writeBytes addr (bs.take (Config.memSize - addr)) }

/-- Store a word of spec/opcode_table.json as the instruction window at PC. -/
def placeTableWord (s : State) (nbits w : Nat) : State :=
  placeBytes s s.pc [tableByte nbits w 0, tableByte nbits w 1, tableByte nbits w 2]

end Sys2Proof.Machine
end

