-- ==== Sys2Proof/Machine/Step.lean ====
section
/-! DEFINITION. The step: one cycle of the loop with the dispatcher (spec/40_loop_and_dispatch.md R91). -/

namespace Sys2Proof.Machine

/-- One step (R80, R91). -/
def step (s : State) : Host.Outcome State Fault Refusal := cycle exec s

/-- `s` with the instruction of a table word stored where the next step fetches (log entry 4). -/
def State.withFetchWord (s : State) (nbits w : Nat) : State := placeTableWord s nbits w

end Sys2Proof.Machine
end

