-- ==== Sys2Proof/Machine/Assembler.lean ====
section
/-! DEFINITION. The assembler syntax of spec/30_encoding.md R68: one line of text to an instruction and to its bytes, and an instruction's text. -/

namespace Sys2Proof.Machine

/-- Blank characters between tokens. DESIGN CHOICE: space and tab (log entry 18). -/
def isBlank (c : Char) : Bool := c == ' ' || c == '\t'

/-- A token without the blanks around it. -/
def trimBlanks (t : List Char) : List Char := ((t.dropWhile isBlank).reverse.dropWhile isBlank).reverse

/-- The pieces of a text between its commas. -/
def splitCommas : List Char → List (List Char)
  | [] => [[]]
  | c :: cs =>
    if c = ',' then [] :: splitCommas cs
    else
      match splitCommas cs with
      | [] => [[c]]
      | t :: ts => (c :: t) :: ts

/-- `reg ::= "r0" | ... | "r7" | "SP"`, where SP means r7 (R68). -/
def parseReg (t : List Char) : Option Byte :=
  match t with
  | ['S', 'P'] => some 7#8
  | ['r', d] => if '0' ≤ d ∧ d ≤ '7' then some (BitVec.ofNat 8 (d.toNat - '0'.toNat)) else none
  | _ => none

/-- The value of a digit in a base of at most 16. DESIGN CHOICE: hexadecimal letters in either case (log entry 18). -/
def digitVal (base : Nat) (c : Char) : Option Nat :=
  let v :=
    if '0' ≤ c ∧ c ≤ '9' then c.toNat - '0'.toNat
    else if 'a' ≤ c ∧ c ≤ 'f' then c.toNat - 'a'.toNat + 10
    else if 'A' ≤ c ∧ c ≤ 'F' then c.toNat - 'A'.toNat + 10
    else base
  if v < base then some v else none

/-- Digits read from the left, after the value `acc` of those already read. -/
def parseDigits (base acc : Nat) : List Char → Option Nat
  | [] => some acc
  | c :: cs =>
    match digitVal base c with
    | some v => parseDigits base (acc * base + v) cs
    | none => none

/-- A number of at least one digit that is a byte, 0 to 255 (R68, R10). -/
def parseByte (base : Nat) (ds : List Char) : Option Byte :=
  match ds, parseDigits base 0 ds with
  | [], _ => none
  | _, some n => if n < 256 then some (BitVec.ofNat 8 n) else none
  | _, none => none

/-- `imm ::= decimal 0..255 | "0x" hex | "0b" binary` (R68). -/
def parseImm (t : List Char) : Option Byte :=
  match t with
  | '0' :: 'x' :: ds => parseByte 16 ds
  | '0' :: 'b' :: ds => parseByte 2 ds
  | ds => parseByte 10 ds

/-- The row of a mnemonic, upper case as in the table (R64, R68). -/
def rowNamed (m : List Char) : Option OpRow := (handlerTable ++ [hltRow]).find? fun r => r.mnemonic.toList == m

/-- An instruction of a row from the text of its operands, by the row's format (R68). -/
def parseOperands (r : OpRow) (text : List Char) : Option Instr :=
  match r.format, (splitCommas text).map trimBlanks with
  | .n, [t] => if t.isEmpty then some (r.build 0#8 0#8) else none
  | .r, [t] => (parseReg t).map fun a => r.build a 0#8
  | .rr, [t, u] => (parseReg t).bind fun a => (parseReg u).map fun b => r.build a b
  | .ri, [t, u] => (parseReg t).bind fun a => (parseImm u).map fun b => r.build a b
  | _, _ => none

/-- The instruction a line of assembler text stands for (R68). -/
def parseAsm (line : List Char) : Option Instr :=
  let t := trimBlanks line
  let m := t.takeWhile fun c => !isBlank c
  (rowNamed m).bind fun r => parseOperands r (t.drop m.length)

/-- The bytes a line assembles to: those of its format and nothing else (R68). -/
def assemble (line : List Char) : Option (List Byte) := (parseAsm line).map encode

/-- A register in assembler text. -/
def printReg (a : Byte) : List Char := 'r' :: Nat.toDigits 10 a.toNat

/-- An instruction in assembler text, immediates in decimal (R68). -/
def printAsm (i : Instr) : List Char :=
  match i with
  | .ldi a imm => "LDI ".toList ++ printReg a ++ ',' :: Nat.toDigits 10 imm.toNat
  | .prn a   => "PRN ".toList ++ printReg a
  | .mul a b => "MUL ".toList ++ printReg a ++ ',' :: printReg b
  | .push a  => "PUSH ".toList ++ printReg a
  | .pop a   => "POP ".toList ++ printReg a
  | .cmp a b => "CMP ".toList ++ printReg a ++ ',' :: printReg b
  | .jmp a   => "JMP ".toList ++ printReg a
  | .jeq a   => "JEQ ".toList ++ printReg a
  | .jne a   => "JNE ".toList ++ printReg a
  | .pra a   => "PRA ".toList ++ printReg a
  | .hlt     => "HLT".toList

end Sys2Proof.Machine
end

