-- ==== Sys2Proof/Machine/HostInterface.lean ====
section
/-! DEFINITION. The interfaces at the block's boundary (spec/00_scope.md R8): `load`, `snapshot`, the observation of an ended run, and the host's view of the end states (spec/60_exceptions.md R158). None of them is a step. -/

namespace Sys2Proof.Machine

/-- The `load` interface (R172): the image over cells `0..n-1`; nothing else is touched. An image of more than 256 bytes
is refused, so no run starts (D14). It is used once, after reset and before the first step. -/
def load (image : List Byte) (s : State) : Result :=
  if Config.memSize < image.length then .refused (.imageTooLong image.length)
  else .next { s with mem := s.mem.writeBytes 0 image }

/-- The state a run starts from: reset, then load (R178). -/
def boot (p : Config.Params) (image : List Byte) : Result := load image (State.resetWith p)

/-- A tracer's copy of the state (R163); a cell at 256 or more is absent, not read (D19). -/
structure Snapshot where
  pc    : Nat
  flE   : Bit
  cell0 : Option Byte
  cell1 : Option Byte
  cell2 : Option Byte
  x     : Vector Byte 8
deriving DecidableEq, Repr

/-- A cell as the tracer sees it: absent at 256 or more (D19). -/
def snapshotCell (addr : Nat) (s : State) : Option Byte :=
  if addr < Config.memSize then some (s.mem.read addr) else none

/-- The snapshot of a state (R163). -/
def snapshot (s : State) : Snapshot :=
  { pc := s.pc, flE := s.flE, cell0 := snapshotCell s.pc s, cell1 := snapshotCell (s.pc + 1) s,
    cell2 := snapshotCell (s.pc + 2) s, x := s.x }

/-- What a run that has ended shows (R178). -/
structure Observation where
  status : Status
  x      : Vector Byte 8
  pc     : Nat
  flE    : Bit
  mem    : List Byte
  out    : List OutEvent
deriving DecidableEq, Repr

/-- A run has ended: its status is not RUNNING (R178). -/
def State.ended (s : State) : Bool := decide (s.status ≠ .running)

/-- The observation of an ended run; a run that goes on has none (R178). -/
def observe (s : State) : Option Observation :=
  if s.ended then
    some { status := s.status, x := s.x, pc := s.pc, flE := s.flE,
           mem := (List.range Config.memSize).map s.mem.read, out := s.out }
  else none

/-- The host's exit code for an end state (R158): 1 for an unknown opcode, the OPEN parameters otherwise. -/
def hostExitCode : Status → Option Nat
  | .running => none
  | .halted => some Config.haltExitCode
  | .faulted .unknownOpcode _ => some 1
  | .faulted _ _ => some Config.faultExitCode

/-- The one-line diagnostic the host prints (R158): "Instruction unknown" and the opcode in decimal; a text the spec does
not give for the other faults; nothing for a run that halts. -/
def hostReport : Status → Option String
  | .running => none
  | .halted => none
  | .faulted .unknownOpcode info => some ("Instruction unknown " ++ toString info.value)
  | .faulted kind info => some (Config.faultDiagnostic kind.code info.pc info.value)

end Sys2Proof.Machine
end

