-- ==== Sys2Proof/Safety.lean ====
section
/-! DEFINITION. What claims are stated in terms of: which faults an instruction can raise (spec/60_exceptions.md R148), what a fault records (R146), the invariant of every step, and a fault-free run. -/

namespace Sys2Proof.Machine

/-- The eleven recognized opcodes, as R67 lists them. -/
def knownOpcodes : List Byte :=
  [0x01#8, 0x45#8, 0x46#8, 0x47#8, 0x48#8, 0x54#8, 0x55#8, 0x56#8, 0x82#8, 0xA2#8, 0xA7#8]

/-- The state of a run that faulted in the step from `s`: only `status` differs (R150), and it records the PC of that
step (R147). -/
def State.withFault (s : State) (kind : FaultKind) (value : Int) : State :=
  { s with status := .faulted kind { pc := s.pc, value := value } }

/-- The data a fault of each kind can record (R146); no program reaches `unsupportedAluOp` (R104). -/
def FaultKind.legalValue : FaultKind → Int → Prop
  | .unknownOpcode, v => ∃ op : Byte, v = op.toNat ∧ op ∉ knownOpcodes
  | .addressOutOfRange, v => 256 ≤ v ∧ v ≤ 258
  | .registerIndexOutOfRange, v => 8 ≤ v ∧ v < 256
  | .stackPointerOutOfRange, v => v = -1 ∨ v = 256
  | .unsupportedAluOp, _ => False

/-- The faults an instruction's own checks can raise, kind and datum (the table of R148): its first register operand that
is out of range; for PUSH and POP, whose operand is in range, the SP they would leave. -/
def mayRaise (i : Instr) : FaultKind → Int → Prop
  | .registerIndexOutOfRange, v => ∃ b, i.regOperands.find? (fun b => decide (8 ≤ b.toNat)) = some b ∧ v = b.toNat
  | .stackPointerOutOfRange, v =>
    (∃ a, i = .push a ∧ a.toNat < 8 ∧ v = -1) ∨ (∃ a, i = .pop a ∧ a.toNat < 8 ∧ v = 256)
  | .unknownOpcode, _ => False
  | .addressOutOfRange, _ => False
  | .unsupportedAluOp, _ => False

/-- A status is consistent with the PC: a fault records the PC of the step that raised it, which keeps PC (R147, R150),
and a datum that its kind can record (R146). -/
def Status.consistent : Status → Nat → Prop
  | .running, _ => True
  | .halted, pc => pc ≤ 253
  | .faulted kind info, pc => info.pc = pc ∧ kind.legalValue info.value

/-- What every step keeps: memory canonical and inside the address space, PC in `0..256` (R27), and a status that is
consistent with it. -/
structure State.Inv (s : State) : Prop where
  memWf  : s.mem.wf = true
  pcLe   : s.pc ≤ 256
  status : s.status.consistent s.pc

/-- The next step of a running machine is a CMP that finds its two registers equal (R103, R108). -/
def cmpFindsEqual (s : State) : Prop :=
  ∃ ra rb : RegIdx, executing s = some (.cmp (BitVec.ofNat 8 ra.val) (BitVec.ofNat 8 rb.val)) ∧ s.getReg ra = s.getReg rb

/-- A run of `n` steps without a fault: it is still running or has halted (R153). -/
def runsSafely (n : Nat) (s : State) : Prop :=
  ∃ t : State, Sys2Proof.core.run n s = .next t ∧ (t.status = .running ∨ t.status = .halted)

end Sys2Proof.Machine
end

