-- ==== Sys2Proof/Certificates/Slice0/Obligations.lean ====
section
/-! DEFINITION. The statements for the provers, from the numbered rules of spec/. Each docstring names the rule. In a clause about a fault, the next state is the one R91 gives for `raise`: that a fault writes only `status`, and that it records the PC and one datum, are the spec's own decisions D8 and D10 (log entries 20 and 23). -/

open Sys2Proof Sys2Proof.Machine

/-! ### What each instruction does: its encoding, its effect where it completes, and where it faults -/

/-- R115. LDI completes whenever its register is below 8, whatever the immediate. -/
def Obligations.LdiLoadsImmediate : Prop :=
  ∀ (a imm : Byte) (s : State),
    encode (.ldi a imm) = [0b10000010#8, a, imm] ∧
    (∀ h : a.toNat < 8,
      exec (.ldi a imm) s = .next { s with x := s.x.set a.toNat imm h, pc := s.pc + 3 }) ∧
    (8 ≤ a.toNat → exec (.ldi a imm) s = .next (s.withFault .registerIndexOutOfRange a.toNat))

/-- R117. -/
def Obligations.PrnEmitsDecimalEvent : Prop :=
  ∀ (a : Byte) (s : State),
    encode (.prn a) = [0b01000111#8, a] ∧
    (∀ h : a.toNat < 8,
      exec (.prn a) s = .next { s with out := s.out ++ [.outDec (s.x[a.toNat]'h)], pc := s.pc + 2 }) ∧
    (8 ≤ a.toNat → exec (.prn a) s = .next (s.withFault .registerIndexOutOfRange a.toNat))

/-- R119. -/
def Obligations.PraEmitsCharacterEvent : Prop :=
  ∀ (a : Byte) (s : State),
    encode (.pra a) = [0b01001000#8, a] ∧
    (∀ h : a.toNat < 8,
      exec (.pra a) s = .next { s with out := s.out ++ [.outChar (s.x[a.toNat]'h)], pc := s.pc + 2 }) ∧
    (8 ≤ a.toNat → exec (.pra a) s = .next (s.withFault .registerIndexOutOfRange a.toNat))

/-- R106. The product of the two bytes as integers, modulo 256, goes to rA; A is checked before B. -/
def Obligations.MulWritesProductModulo256 : Prop :=
  ∀ (a b : Byte) (s : State),
    encode (.mul a b) = [0b10100010#8, a, b] ∧
    (∀ (ha : a.toNat < 8) (hb : b.toNat < 8),
      exec (.mul a b) s =
        .next { s with
          x := s.x.set a.toNat (BitVec.ofNat 8 ((s.x[a.toNat]'ha).toNat * (s.x[b.toNat]'hb).toNat % 256)) ha
          pc := s.pc + 3 }) ∧
    (8 ≤ a.toNat → exec (.mul a b) s = .next (s.withFault .registerIndexOutOfRange a.toNat)) ∧
    (a.toNat < 8 → 8 ≤ b.toNat → exec (.mul a b) s = .next (s.withFault .registerIndexOutOfRange b.toNat))

/-- R108. Inequality leaves the flag as it was. -/
def Obligations.CmpSetsFlagOnEqualityOnly : Prop :=
  ∀ (a b : Byte) (s : State),
    encode (.cmp a b) = [0b10100111#8, a, b] ∧
    (∀ (ha : a.toNat < 8) (hb : b.toNat < 8),
      (s.x[a.toNat]'ha = s.x[b.toNat]'hb → exec (.cmp a b) s = .next { s with flE := 1#1, pc := s.pc + 3 }) ∧
      (s.x[a.toNat]'ha ≠ s.x[b.toNat]'hb → exec (.cmp a b) s = .next { s with pc := s.pc + 3 })) ∧
    (8 ≤ a.toNat → exec (.cmp a b) s = .next (s.withFault .registerIndexOutOfRange a.toNat)) ∧
    (a.toNat < 8 → 8 ≤ b.toNat → exec (.cmp a b) s = .next (s.withFault .registerIndexOutOfRange b.toNat))

/-- PUSH (R125). That it faults with -1 when SP = 0 is the spec's own decision D7 (log entry 9), and that PUSH SP
stores the decremented SP its decision D22 (log entry 10). -/
def Obligations.PushDecrementsThenStores : Prop :=
  ∀ (a : Byte) (s : State),
    encode (.push a) = [0b01000101#8, a] ∧
    (∀ h : a.toNat < 8,
      (s.x[7].toNat ≠ 0 →
        exec (.push a) s =
          .next { s with
            x := s.x.set 7 (BitVec.ofNat 8 (s.x[7].toNat - 1))
            mem := s.mem.write (s.x[7].toNat - 1)
              (if a.toNat = 7 then BitVec.ofNat 8 (s.x[7].toNat - 1) else s.x[a.toNat]'h)
            pc := s.pc + 2 }) ∧
      (s.x[7].toNat = 0 → exec (.push a) s = .next (s.withFault .stackPointerOutOfRange (-1)))) ∧
    (8 ≤ a.toNat → exec (.push a) s = .next (s.withFault .registerIndexOutOfRange a.toNat))

/-- POP (R128). That a new SP of 256 faults before any write is the spec's own decision D7 (log entry 9), and that POP
SP leaves SP at the popped byte plus 1 its decision D22 (log entry 10). -/
def Obligations.PopReadsThenIncrements : Prop :=
  ∀ (a : Byte) (s : State),
    encode (.pop a) = [0b01000110#8, a] ∧
    (∀ h : a.toNat < 8, a.toNat ≠ 7 →
      (s.x[7].toNat < 255 →
        exec (.pop a) s =
          .next { s with
            x := (s.x.set a.toNat (s.mem.read s.x[7].toNat) h).set 7 (BitVec.ofNat 8 (s.x[7].toNat + 1))
            pc := s.pc + 2 }) ∧
      (s.x[7].toNat = 255 → exec (.pop a) s = .next (s.withFault .stackPointerOutOfRange 256))) ∧
    (a.toNat = 7 →
      ((s.mem.read s.x[7].toNat).toNat < 255 →
        exec (.pop a) s =
          .next { s with
            x := s.x.set 7 (BitVec.ofNat 8 ((s.mem.read s.x[7].toNat).toNat + 1)), pc := s.pc + 2 }) ∧
      ((s.mem.read s.x[7].toNat).toNat = 255 →
        exec (.pop a) s = .next (s.withFault .stackPointerOutOfRange 256))) ∧
    (8 ≤ a.toNat → exec (.pop a) s = .next (s.withFault .registerIndexOutOfRange a.toNat))

/-- R135. -/
def Obligations.JmpReplacesPc : Prop :=
  ∀ (a : Byte) (s : State),
    encode (.jmp a) = [0b01010100#8, a] ∧
    (∀ h : a.toNat < 8, exec (.jmp a) s = .next { s with pc := (s.x[a.toNat]'h).toNat }) ∧
    (8 ≤ a.toNat → exec (.jmp a) s = .next (s.withFault .registerIndexOutOfRange a.toNat))

/-- JEQ (R137). That the register is checked, and so faults, also when the jump is not taken is the spec's own
decision D6 (R90, log entry 20). -/
def Obligations.JeqJumpsWhenFlagSet : Prop :=
  ∀ (a : Byte) (s : State),
    encode (.jeq a) = [0b01010101#8, a] ∧
    (∀ h : a.toNat < 8,
      (s.flE = 1#1 → exec (.jeq a) s = .next { s with pc := (s.x[a.toNat]'h).toNat }) ∧
      (s.flE = 0#1 → exec (.jeq a) s = .next { s with pc := s.pc + 2 })) ∧
    (8 ≤ a.toNat → exec (.jeq a) s = .next (s.withFault .registerIndexOutOfRange a.toNat))

/-- JNE (R139). That the register is checked, and so faults, also when the jump is not taken is the spec's own
decision D6 (R90, log entry 20). -/
def Obligations.JneJumpsWhenFlagClear : Prop :=
  ∀ (a : Byte) (s : State),
    encode (.jne a) = [0b01010110#8, a] ∧
    (∀ h : a.toNat < 8,
      (s.flE = 0#1 → exec (.jne a) s = .next { s with pc := (s.x[a.toNat]'h).toNat }) ∧
      (s.flE = 1#1 → exec (.jne a) s = .next { s with pc := s.pc + 2 })) ∧
    (8 ≤ a.toNat → exec (.jne a) s = .next (s.withFault .registerIndexOutOfRange a.toNat))

/-- HLT (R84) always completes once its window is fetched. That the step faults at the fetch instead at 254 and 255 is
the spec's own decision D5 (R82, log entry 8). -/
def Obligations.HltHalts : Prop :=
  encode .hlt = [0b00000001#8] ∧
  ∀ s : State,
    exec .hlt s = .next { s with status := .halted } ∧
    (s.status = .running → s.pc ≤ 253 → s.mem.read s.pc = 0b00000001#8 →
      step s = .next { s with status := .halted }) ∧
    (s.status = .running → s.pc = 254 ∨ s.pc = 255 →
      step s = .next (s.withFault .addressOutOfRange 256))

/-! ### Frames: what each instruction leaves unchanged, in every form, the faulting ones among them -/

/-- LDI and MUL: only rA and PC, and `status` only in a fault. -/
def Obligations.RegisterWritersFrame : Prop :=
  ∀ (i : Instr) (a b : Byte) (s t : State), i = .ldi a b ∨ i = .mul a b → exec i s = .next t →
    (∀ r : RegIdx, r.val ≠ a.toNat → t.getReg r = s.getReg r) ∧ t.flE = s.flE ∧ t.out = s.out ∧
    (i.wf = true → t.status = s.status) ∧ (∀ addr, memRead addr t = memRead addr s)

/-- CMP, PRN, PRA, JMP, JEQ, JNE and HLT: no register and no byte of memory; CMP alone may write the flag, PRN and PRA
alone the output, HLT alone `status` outside a fault. -/
def Obligations.NonWritersFrame : Prop :=
  ∀ (i : Instr) (a b : Byte) (s t : State),
    i = .cmp a b ∨ i = .prn a ∨ i = .pra a ∨ i = .jmp a ∨ i = .jeq a ∨ i = .jne a ∨ i = .hlt →
    exec i s = .next t →
    (∀ r : RegIdx, t.getReg r = s.getReg r) ∧ (∀ addr, memRead addr t = memRead addr s) ∧
    (i ≠ .cmp a b → t.flE = s.flE) ∧ (i ≠ .prn a → i ≠ .pra a → t.out = s.out) ∧
    (i ≠ .hlt → i.wf = true → t.status = s.status)

/-- PUSH: SP is the only register that changes, and the byte at `pushAddr`, where it stores, the only byte of memory;
a PUSH that faults stores nothing. The premise is the memory form every step keeps (StepKeepsInvariant). -/
def Obligations.PushFrame : Prop :=
  ∀ (a : Byte) (s t : State), s.mem.wf = true → exec (.push a) s = .next t →
    (∀ r : RegIdx, r ≠ Config.spIndex → t.getReg r = s.getReg r) ∧ t.flE = s.flE ∧ t.out = s.out ∧
    (∀ addr, addr ≠ pushAddr s → memRead addr t = memRead addr s) ∧
    (8 ≤ a.toNat ∨ s.sp = 0#8 → t.sp = s.sp ∧ ∀ addr, memRead addr t = memRead addr s) ∧
    (a.toNat < 8 → s.sp ≠ 0#8 → t.status = s.status)

/-- POP: rA and SP are the only registers that change, and no byte of memory does; a POP that faults changes no
register. -/
def Obligations.PopFrame : Prop :=
  ∀ (a : Byte) (s t : State), exec (.pop a) s = .next t →
    (∀ r : RegIdx, r.val ≠ a.toNat → r ≠ Config.spIndex → t.getReg r = s.getReg r) ∧ t.flE = s.flE ∧ t.out = s.out ∧
    (∀ addr, memRead addr t = memRead addr s) ∧
    (t.status = s.status ∨ ∀ r : RegIdx, t.getReg r = s.getReg r)

/-! ### Encoding -/

/-- A byte list decodes to an instruction and the bytes after it exactly when it is the instruction's encoding
followed by those bytes: decoding what was encoded gives it back, with every operand at every value, and nothing else
decodes to it. -/
def Obligations.DecodeIsInverseOfEncode : Prop :=
  ∀ (i : Instr) (bytes rest : List Byte), decode bytes = .ok (i, rest) ↔ bytes = encode i ++ rest

/-- A window decodes to an instruction exactly when the instruction's bytes stand at its head: the decoder reads no
bit it should not, drops none, and no two instructions share a window. -/
def Obligations.WindowDecodesIffEncodingStandsInIt : Prop :=
  ∀ (op a b : Byte) (i : Instr), decodeWindow op a b = .ok i ↔ encode i = [op, a, b].take i.length

/-- Words written out from the opcode bytes of R64. That a table word carries operands A and B above the opcode byte,
the lowest byte first, is log entry 21 (DEDUCED). -/
def Obligations.TableWordsDecode : Prop :=
  decodeTableWord 24 0b00001000_00000000_10000010 = some (.ldi 0#8 8#8) ∧
  decodeTableWord 16 0b00000101_01000111 = some (.prn 5#8) ∧
  decodeTableWord 24 0b00000001_00000000_10100010 = some (.mul 0#8 1#8) ∧
  decodeTableWord 16 0b00000111_01000101 = some (.push 7#8) ∧
  decodeTableWord 24 0b00000100_00000011_10100111 = some (.cmp 3#8 4#8) ∧
  decodeTableWord 16 0b00000010_01010101 = some (.jeq 2#8) ∧
  decodeTableWord 8 0b00000001 = some .hlt ∧
  decodeTableWord 24 0b00000001_00000000_10100000 = none

/-- R67 (D24): every opcode byte outside the list is rejected by name, whatever the operand bytes, and there are 245.
-/
def Obligations.UnknownOpcodesRejected : Prop :=
  (∀ op a b : Byte, decodeWindow op a b = .error (.unknownOpcode op) ↔ op ∉ knownOpcodes) ∧
  ((List.range 256).filter fun n => decide (BitVec.ofNat 8 n ∉ knownOpcodes)).length = 245

/-- R66: the pattern of the opcode bits holds of every instruction. -/
def Obligations.OpcodeBitPattern : Prop :=
  ∀ i : Instr,
    i.opcode.toNat / 64 = i.length - 1 ∧
    (i.opcode.getLsbD 5 = true ↔ ∃ a b, i = .mul a b ∨ i = .cmp a b) ∧
    (i.opcode.getLsbD 4 = true ↔ ∃ a, i = .jmp a ∨ i = .jeq a ∨ i = .jne a)

/-! ### The step -/

/-- A step of a running machine whose window fits and decodes runs exactly the decoded instruction; nothing is added
around it (R81). -/
def Obligations.StepRunsDecodedInstruction : Prop :=
  ∀ (s : State) (i : Instr), s.status = .running → s.pc ≤ 253 →
    decodeWindow (s.mem.read s.pc) (s.mem.read (s.pc + 1)) (s.mem.read (s.pc + 2)) = .ok i →
    step s = exec i s ∧ executing s = some i

/-- An instruction whose own bytes stand at PC is the one that runs, whatever the bytes after it (R63), and the window
is read before it executes (R50). -/
def Obligations.StoredEncodingExecutes : Prop :=
  ∀ (s : State) (i : Instr), s.status = .running → s.pc ≤ 253 →
    (∀ (k : Nat) (h : k < (encode i).length), s.mem.read (s.pc + k) = (encode i)[k]) →
    step s = exec i s

/-- The host's way to place an instruction: the next step runs it (log entry 4). -/
def Obligations.FetchWordRunsItsInstruction : Prop :=
  ∀ (s : State) (nbits w : Nat) (i : Instr), s.mem.wf = true → s.status = .running → s.pc ≤ 253 →
    decodeTableWord nbits w = some i →
    step (s.withFetchWord nbits w) = exec i (s.withFetchWord nbits w) ∧
    (s.withFetchWord nbits w).mem.wf = true ∧
    ∀ addr, addr < s.pc ∨ s.pc + 2 < addr → memRead addr (s.withFetchWord nbits w) = memRead addr s

/-- The fetch (R82), with the spec's own decision D5 to keep the read pattern (log entry 8): the window is the three
cells at PC; the first address out of range, in ascending order, is the one reported, whatever the opcode is. -/
def Obligations.FetchReadsThreeBytesOrFaults : Prop :=
  ∀ s : State,
    (s.pc ≤ 253 →
      fetch s = .ok { op := s.mem.read s.pc, a := s.mem.read (s.pc + 1), b := s.mem.read (s.pc + 2) }) ∧
    (s.status = .running → s.pc = 254 ∨ s.pc = 255 → step s = .next (s.withFault .addressOutOfRange 256)) ∧
    (s.status = .running → 256 ≤ s.pc → step s = .next (s.withFault .addressOutOfRange s.pc))

/-- R86: nothing but `status` changes, and the host exits with 1 and reports the opcode in decimal. -/
def Obligations.UnknownOpcodeFaults : Prop :=
  ∀ s : State, s.status = .running → s.pc ≤ 253 → s.mem.read s.pc ∉ knownOpcodes →
    ∃ t : State, step s = .next t ∧ t = s.withFault .unknownOpcode (s.mem.read s.pc).toNat ∧
      hostExitCode t.status = some 1 ∧
      hostReport t.status = some ("Instruction unknown " ++ toString (s.mem.read s.pc).toNat)

/-- A step raises at most one fault (R149), in the spec's own order D9 (log entry 20): the first that applies of
fetch, HLT, unknown opcode, register A, register B, SP range; the ALU's fault is never reached. -/
def Obligations.FaultsInPriorityOrder : Prop :=
  ∀ s : State, s.status = .running →
    (254 ≤ s.pc → step s = .next (s.withFault .addressOutOfRange (max 256 s.pc : Nat))) ∧
    (s.pc ≤ 253 → s.mem.read s.pc = 0x01#8 → step s = .next { s with status := .halted }) ∧
    (s.pc ≤ 253 → s.mem.read s.pc ∉ knownOpcodes →
      step s = .next (s.withFault .unknownOpcode (s.mem.read s.pc).toNat)) ∧
    (∀ i, executing s = some i →
      (∀ r, i.regOperands.find? (fun b => decide (8 ≤ b.toNat)) = some r →
        step s = .next (s.withFault .registerIndexOutOfRange r.toNat)) ∧
      (∀ a, i = .push a → a.toNat < 8 → s.sp.toNat = 0 →
        step s = .next (s.withFault .stackPointerOutOfRange (-1))) ∧
      (∀ a, i = .pop a → a.toNat < 8 → (if a.toNat = 7 then s.mem.read s.sp.toNat else s.sp).toNat = 255 →
        step s = .next (s.withFault .stackPointerOutOfRange 256)) ∧
      (i.wf = true →
        (∀ a, i = .push a → s.sp.toNat ≠ 0) →
        (∀ a, i = .pop a → (if a.toNat = 7 then s.mem.read s.sp.toNat else s.sp).toNat ≠ 255) →
        ∃ t, step s = .next t ∧ (t.status = .running ∨ i = .hlt ∧ t.status = .halted))) ∧
    (∀ t info, step s = .next t → t.status ≠ .faulted .unsupportedAluOp info)

/-- R80, R89, R91 (D25): a running machine always has exactly one next state, and from HALTED and FAULTED there is no
step, which the model answers with the faults of its own naming (log entry 1). -/
def Obligations.StepIsTotalOnRunningStates : Prop :=
  ∀ s : State,
    (s.status = .running → ∃ t, step s = .next t) ∧
    (s.status = .halted → step s = .fault .noStepFromHalted) ∧
    (∀ kind info, s.status = .faulted kind info → step s = .fault (.noStepFromFaulted kind info))

/-- Precise faults (R150, R147), the spec's own decision D8 (log entry 20): a step that faults writes nothing but
`status`, and the fault records the PC of that step and a datum its kind can have. The datum's bound for an address
needs PC in 0..256, which every step keeps (StepKeepsInvariant). -/
def Obligations.FaultsArePrecise : Prop :=
  ∀ (s t : State) (kind : FaultKind) (info : FaultInfo), step s = .next t → t.status = .faulted kind info →
    t = { s with status := .faulted kind info } ∧ info.pc = s.pc ∧ (s.pc ≤ 256 → kind.legalValue info.value)

/-- The table of R148, which the spec marks as derived from the instruction rules: an instruction can raise exactly
the faults of its row, each of them in some state. -/
def Obligations.InstructionsRaiseExactlyTheirFaults : Prop :=
  ∀ (i : Instr) (kind : FaultKind) (v : Int),
    mayRaise i kind v ↔
      ∃ s t : State, s.status = .running ∧ exec i s = .next t ∧ t.status = .faulted kind { pc := s.pc, value := v }

/-- R26: PC after every step. HLT and a fault, that of the fetch or of an unknown opcode among them, leave it. -/
def Obligations.PcAdvancesOrIsReplaced : Prop :=
  ∀ s t : State, step s = .next t →
    (t.status ≠ .running → t.pc = s.pc) ∧
    (t.status = .running → ∃ i, executing s = some i ∧
      match i with
      | .ldi _ _ | .mul _ _ | .cmp _ _ => t.pc = s.pc + 3
      | .prn _ | .push _ | .pop _ | .pra _ => t.pc = s.pc + 2
      | .jmp a => ∃ r : RegIdx, r.val = a.toNat ∧ t.pc = (s.getReg r).toNat
      | .jeq a => ∃ r : RegIdx, r.val = a.toNat ∧ t.pc = if s.flE = 1#1 then (s.getReg r).toNat else s.pc + 2
      | .jne a => ∃ r : RegIdx, r.val = a.toNat ∧ t.pc = if s.flE = 0#1 then (s.getReg r).toNat else s.pc + 2
      | .hlt => False)

/-! ### Invariants and rules of the whole machine -/

/-- The invariant holds at reset, for every value of the open parameters. -/
def Obligations.InvariantAtReset : Prop :=
  (∀ p : Config.Params, (State.resetWith p).Inv) ∧ State.reset.Inv

/-- The invariant holds when a run starts, whatever image is loaded. -/
def Obligations.InvariantAtBoot : Prop :=
  ∀ (p : Config.Params) (image : List Byte) (s : State), boot p image = .next s → s.Inv ∧ s.status = .running

/-- Every step keeps memory canonical and inside the address space, PC in 0..256, and a recorded fault true to its
kind. -/
def Obligations.StepKeepsInvariant : Prop :=
  ∀ s t : State, s.Inv → step s = .next t → t.Inv

/-- R29: CMP alone writes the flag, only to set it, and JEQ and JNE alone read it: under any other instruction two
states that differ in the flag give next states that differ at most in the flag. -/
def Obligations.FlagIsWrittenByCmpAndReadByConditionalJumps : Prop :=
  (∀ s t : State, step s = .next t →
    (cmpFindsEqual s → t.flE = 1#1) ∧ (¬ cmpFindsEqual s → t.flE = s.flE)) ∧
  (∀ (i : Instr) (s t : State) (e : Bit), (∀ a, i ≠ .jeq a ∧ i ≠ .jne a) → exec i s = .next t →
    ∃ t', exec i { s with flE := e } = .next t' ∧ { t' with flE := t.flE } = t)

/-- The consequence R109, which the spec marks as derived from R103 and R108: at any point of a run the flag is 1
exactly when it was at the start or some CMP executed earlier in the run found its two registers equal; a run from
reset starts with 0. -/
def Obligations.FlagTellsWhetherAnyCmpFoundEquality : Prop :=
  (∀ (n : Nat) (s t : State), Sys2Proof.core.run n s = .next t →
    (t.flE = 1#1 ↔
      s.flE = 1#1 ∨ ∃ (k : Nat) (u : State), k < n ∧ Sys2Proof.core.run k s = .next u ∧ cmpFindsEqual u)) ∧
  (∀ (p : Config.Params) (image : List Byte) (n : Nat) (s t : State),
    boot p image = .next s → Sys2Proof.core.run n s = .next t →
    (t.flE = 1#1 ↔ ∃ (k : Nat) (u : State), k < n ∧ Sys2Proof.core.run k s = .next u ∧ cmpFindsEqual u))

/-- Only a PUSH changes memory, and only the byte one below SP. -/
def Obligations.OnlyPushChangesMemory : Prop :=
  ∀ (s t : State) (addr : Nat), s.mem.wf = true → step s = .next t → memRead addr t ≠ memRead addr s →
    (∃ a, executing s = some (.push a)) ∧ addr + 1 = s.sp.toNat ∧ t.sp.toNat = addr

/-- The output channel (R33, the spec's own rendering D11, log entry 13): `out` is empty at reset, PRN and PRA of an
existing register append one event each, nothing else changes it, and no step depends on it. -/
def Obligations.OutputOnlyGrowsAndIsNeverRead : Prop :=
  (∀ p : Config.Params, (State.resetWith p).out = []) ∧
  ∀ s t : State, step s = .next t →
    ∃ es : List OutEvent, t.out = s.out ++ es ∧
      (∀ r : RegIdx, executing s = some (.prn (BitVec.ofNat 8 r.val)) → es = [.outDec (s.getReg r)]) ∧
      (∀ r : RegIdx, executing s = some (.pra (BitVec.ofNat 8 r.val)) → es = [.outChar (s.getReg r)]) ∧
      ((∀ r : RegIdx, executing s ≠ some (.prn (BitVec.ofNat 8 r.val)) ∧
          executing s ≠ some (.pra (BitVec.ofNat 8 r.val))) → es = []) ∧
      ∀ o : List OutEvent, step { s with out := o } = .next { t with out := o ++ es }

/-- A run never ends, or it ends once, in HALTED or in FAULTED (R153). From there no step is defined (R89): that every
longer run then answers a fault is the model's own reading (log entry 1, DEDUCED). -/
def Obligations.EveryRunHangsOrEndsExactlyOnce : Prop :=
  ∀ s : State, s.status = .running →
    (∀ n, ∃ t, Sys2Proof.core.run n s = .next t ∧ t.status = .running) ∨
    (∃ (n : Nat) (t : State), Sys2Proof.core.run n s = .next t ∧
      (t.status = .halted ∨ ∃ kind info, t.status = .faulted kind info) ∧
      (∀ m < n, ∃ u, Sys2Proof.core.run m s = .next u ∧ u.status = .running) ∧
      (∀ m > n, ∃ f, Sys2Proof.core.run m s = .fault f))

/-- A JMP to its own address runs forever (the corner case of R135). -/
def Obligations.JumpToItselfHangs : Prop :=
  ∀ (s : State) (a : Byte) (h : a.toNat < 8), s.status = .running → s.pc ≤ 253 → s.mem.read s.pc = 0x54#8 →
    s.mem.read (s.pc + 1) = a → (s.x[a.toNat]'h).toNat = s.pc → ∀ n, Sys2Proof.core.run n s = .next s

/-! ### Memory, the stack and the ALU -/

/-- R40: the address decoder reads and writes the one cell addressed, and fails at 256 or more; it never wraps. -/
def Obligations.AddressDecoderReadsAndWritesOneCell : Prop :=
  ∀ (addr : Nat) (v : Byte) (s : State), s.mem.wf = true →
    (addr < 256 →
      memRead addr s = .ok (s.mem.read addr) ∧
      ∃ t, memWrite addr v s = .ok t ∧ memRead addr t = .ok v ∧
        (∀ b, b ≠ addr → memRead b t = memRead b s) ∧ { t with mem := s.mem } = s) ∧
    (256 ≤ addr →
      memRead addr s = .error { kind := .addressOutOfRange, value := addr } ∧
      memWrite addr v s = .error { kind := .addressOutOfRange, value := addr })

/-- Canonical memories that read the same everywhere are the same data. -/
def Obligations.CanonicalMemoriesAreEqualWhenTheyReadEqual : Prop :=
  ∀ m m' : Memory, m.wf = true → m'.wf = true → (∀ addr < 256, m.read addr = m'.read addr) → m = m'

/-- "PUSH then POP into a different register round-trips the value exactly" (E3): for SP from 1 to 255 and registers
other than SP. -/
def Obligations.PushThenPopRoundTrips : Prop :=
  ∀ (a c : Byte) (s : State) (ha : a.toNat < 7) (hc : c.toNat < 7), s.mem.wf = true → 1 ≤ s.sp.toNat →
    ∃ t u : State, exec (.push a) s = .next t ∧ exec (.pop c) t = .next u ∧
      u.x[c.toNat]'(by omega) = s.x[a.toNat]'(by omega) ∧ u.sp = s.sp ∧ u.pc = s.pc + 4 ∧
      memRead (s.sp.toNat - 1) u = .ok (s.x[a.toNat]'(by omega))

/-- R50: a byte PUSH writes is what a fetch whose window covers it reads, in the very next step. -/
def Obligations.PushedByteIsFetchedAtOnce : Prop :=
  ∀ (a : Byte) (s t : State) (h : a.toNat < 7), s.mem.wf = true → s.sp ≠ 0#8 → exec (.push a) s = .next t →
    t.pc ≤ 253 →
    ∃ w : Window, fetch t = .ok w ∧
      (t.pc + 1 = s.sp.toNat → w.op = s.x[a.toNat]'(by omega)) ∧
      (t.pc + 2 = s.sp.toNat → w.a = s.x[a.toNat]'(by omega)) ∧
      (t.pc + 3 = s.sp.toNat → w.b = s.x[a.toNat]'(by omega))

/-- "after `LDI a, v` then `PRN a`, the printed output equals `v`" (E1). -/
def Obligations.LoadThenPrintShowsTheValue : Prop :=
  ∀ (a v : Byte) (s : State), a.toNat < 8 →
    ∃ t u : State, exec (.ldi a v) s = .next t ∧ exec (.prn a) t = .next u ∧
      u.out = s.out ++ [.outDec v] ∧ u.pc = s.pc + 5

/-- What a JEQ right after a CMP sees (R109): it jumps exactly when the CMP found equality or the flag was already
set. -/
def Obligations.CompareThenJumpSeesStickyFlag : Prop :=
  ∀ (a b c : Byte) (s : State) (ha : a.toNat < 8) (hb : b.toNat < 8) (hc : c.toNat < 8),
    ∃ t u : State, exec (.cmp a b) s = .next t ∧ exec (.jeq c) t = .next u ∧
      u.pc = if s.flE = 1#1 ∨ s.x[a.toNat]'ha = s.x[b.toNat]'hb then (s.x[c.toNat]'hc).toNat else s.pc + 5

/-- The ALU (R100, with the spec's own selector D15, log entry 12): the three operations of the ALU and its answer to
any other selector; ADD and MUL are reduced modulo 256, MUL alone returns its result, CMP alone touches the flag. -/
def Obligations.AluOperations : Prop :=
  ∀ (a b : RegIdx) (s : State) (sel : Int),
    (∃ t, alu .add a b s = .ok (t, none) ∧
      (t.getReg a).toNat = ((s.getReg a).toNat + (s.getReg b).toNat) % 256 ∧
      t = { s with x := s.x.set a.val (t.getReg a) a.isLt }) ∧
    (∃ t r, alu .mul a b s = .ok (t, some r) ∧ t.getReg a = r ∧
      r.toNat = ((s.getReg a).toNat * (s.getReg b).toNat) % 256 ∧
      t = { s with x := s.x.set a.val r a.isLt }) ∧
    (∃ t, alu .cmp a b s = .ok (t, none) ∧
      (s.getReg a = s.getReg b → t = { s with flE := 1#1 }) ∧ (s.getReg a ≠ s.getReg b → t = s)) ∧
    alu (.other sel) a b s = .error { kind := .unsupportedAluOp, value := sel }

/-! ### Reset, load and the host's interfaces -/

/-- Reset (R170): every state element at its reset value, for every value of the OPEN parameter `GPR_INIT` (D2);
`State.reset` takes `SP_INIT` = 0xF4 (D3, log entry 3) and an empty `out` (D11). -/
def Obligations.ResetValues : Prop :=
  (∀ p : Config.Params,
    (∀ addr < 256, memRead addr (State.resetWith p) = .ok 0#8) ∧
    (∀ (r : Nat) (h : r < 7), (State.resetWith p).x[r]'(by omega) = p.gprInit[r]) ∧
    (State.resetWith p).sp = p.spInit ∧ (State.resetWith p).pc = 0 ∧ (State.resetWith p).flE = 0#1 ∧
    (State.resetWith p).status = .running ∧ (State.resetWith p).out = []) ∧
  State.reset = State.resetWith Config.reference ∧ State.reset.sp = 0xF4#8

/-- Load (R172); that an image of more than 256 bytes is refused is the spec's own decision D14 (log entry 15). The
image stands at 0 and up, the cells above it keep 0, and registers, PC, flag, status and output are as reset left
them. -/
def Obligations.LoadPlacesImageAtZero : Prop :=
  ∀ (p : Config.Params) (image : List Byte),
    (image.length ≤ 256 →
      ∃ t : State, boot p image = .next t ∧ (∀ addr < 256, memRead addr t = .ok (image.getD addr 0#8)) ∧
        { t with mem := [] } = State.resetWith p) ∧
    (256 < image.length → boot p image = .refused (.imageTooLong image.length))

/-- What a tracer sees (R163), with the spec's own decision D19 (log entry 19): a cell is present exactly when the
core could read it. -/
def Obligations.SnapshotShowsTheWindow : Prop :=
  ∀ s : State,
    (snapshot s).pc = s.pc ∧ (snapshot s).flE = s.flE ∧ (snapshot s).x = s.x ∧
    (∀ b, (snapshot s).cell0 = some b ↔ memRead s.pc s = .ok b) ∧
    (∀ b, (snapshot s).cell1 = some b ↔ memRead (s.pc + 1) s = .ok b) ∧
    (∀ b, (snapshot s).cell2 = some b ↔ memRead (s.pc + 2) s = .ok b)

/-- The host's view (R158), with the spec's own decision D18 (log entry 14): exit code 1 and the decimal opcode for an
unknown opcode, the OPEN `FAULT_EXIT_CODE`, never 0, for any other fault, a diagnostic for every fault, and the OPEN
`HALT_EXIT_CODE` for HALTED. -/
def Obligations.HostSeesEndStates : Prop :=
  (∀ (op : Byte) (pc : Nat),
    hostExitCode (.faulted .unknownOpcode { pc := pc, value := op.toNat }) = some 1 ∧
    hostReport (.faulted .unknownOpcode { pc := pc, value := op.toNat }) =
      some ("Instruction unknown " ++ toString op.toNat)) ∧
  (∀ kind info, kind ≠ .unknownOpcode → hostExitCode (.faulted kind info) = some Config.faultExitCode) ∧
  Config.faultExitCode ≠ 0 ∧ (∀ kind info, (hostReport (.faulted kind info)).isSome = true) ∧
  hostExitCode .halted = some Config.haltExitCode ∧ hostExitCode .running = none

/-- The end of a run (R178, D25): an ended run, and only an ended run, has an observation, and it holds the whole
final state: two ended states that reach the same observation are the same. -/
def Obligations.ObservationIsTheWholeFinalState : Prop :=
  ∀ s t : State, s.mem.wf = true → t.mem.wf = true →
    ((observe s).isSome = true ↔ s.status ≠ .running) ∧
    (s.status ≠ .running → observe s = observe t → s = t)

/-! ### Assembler syntax -/

/-- The grammar is the spec's own decision D21. The instructions that R68 and the source's scenario E6 write out, as
text and bytes. -/
def Obligations.AssemblerExamples : Prop :=
  assemble "LDI r0,8".toList = some [0b10000010#8, 0b00000000#8, 0b00001000#8] ∧
  assemble "LDI r1,9".toList = some [0b10000010#8, 0b00000001#8, 0b00001001#8] ∧
  assemble "MUL r0,r1".toList = some [0b10100010#8, 0b00000000#8, 0b00000001#8] ∧
  assemble "PRN r0".toList = some [0b01000111#8, 0b00000000#8] ∧
  assemble "HLT".toList = some [0b00000001#8] ∧
  assemble "PUSH SP".toList = some [0b01000101#8, 0b00000111#8] ∧
  assemble "LDI r0,256".toList = none ∧ assemble "ADD r0,r1".toList = none

/-- Assembling the text of a well-formed instruction gives its bytes. The grammar is the spec's own decision D21, and
what it leaves open of blanks and numbers is log entry 18 (DESIGN CHOICE). -/
def Obligations.AssemblerRoundTrip : Prop :=
  ∀ i : Instr, i.wf = true → parseAsm (printAsm i) = some i ∧ assemble (printAsm i) = some (encode i)
end

