-- ==== Sys2Proof/Laws/Decode.lean ====
section
/-! SUPPORT. The opcode map: the row of each instruction, and what a window decodes to. -/

namespace Sys2Proof

/-- The row an instruction's own opcode selects rebuilds it from any window that holds its operand bytes. -/
theorem rowOf_opcode (i : Instr) : ∃ r, rowOf i.opcode = some r ∧ r.format = i.format := by
  cases i <;> exact ⟨_, rfl, rfl⟩

theorem length_encode (i : Instr) : (encode i).length = i.length := by cases i <;> rfl

theorem length_pos (i : Instr) : 1 ≤ i.length := by cases i <;> simp [Instr.length, Instr.format, Format.length]

theorem length_le_three (i : Instr) : i.length ≤ 3 := by cases i <;> simp [Instr.length, Instr.format, Format.length]

theorem encode_ne_nil (i : Instr) : encode i ≠ [] := by cases i <;> simp [encode]

/-- Every row an opcode selects carries that opcode, and builds an instruction of that opcode and format. -/
theorem rowOf_build {op : Byte} {r : OpRow} (h : rowOf op = some r) (a b : Byte) :
    (r.build a b).opcode = op ∧ (r.build a b).format = r.format := by
  unfold rowOf at h
  split at h
  · rename_i hop
    cases h
    exact ⟨hop.symm, rfl⟩
  · have hmem := List.mem_of_find?_eq_some h
    have hop : r.opcode = op := by simpa using List.find?_some h
    subst hop
    simp only [handlerTable, List.mem_cons, List.not_mem_nil, or_false] at hmem
    rcases hmem with rfl | rfl | rfl | rfl | rfl | rfl | rfl | rfl | rfl | rfl <;> exact ⟨rfl, rfl⟩

/-- An opcode byte selects no row exactly when it is none of the eleven of the table. -/
theorem rowOf_eq_none {op : Byte} :
    rowOf op = none ↔
      op ≠ 0x01#8 ∧ op ≠ 0x82#8 ∧ op ≠ 0x47#8 ∧ op ≠ 0xA2#8 ∧ op ≠ 0x45#8 ∧ op ≠ 0x46#8 ∧ op ≠ 0xA7#8 ∧
        op ≠ 0x54#8 ∧ op ≠ 0x55#8 ∧ op ≠ 0x56#8 ∧ op ≠ 0x48#8 := by
  unfold rowOf
  split
  · rename_i h
    simp [h, hltRow]
  · rename_i h
    simp only [hltRow] at h
    simp [handlerTable, h, eq_comm (a := op)]

/-- A decoded window starts with the instruction's opcode. -/
theorem opcode_of_decodeWindow {op a b : Byte} {i : Instr} (h : decodeWindow op a b = .ok i) : i.opcode = op := by
  unfold decodeWindow at h
  split at h
  · rename_i r hr
    cases h
    exact (rowOf_build hr a b).1
  · cases h

namespace Machine

theorem decoded_ok {w : Window} {i : Instr} (h : decodeWindow w.op w.a w.b = .ok i) : decoded w = .ok i := by
  simp [decoded, h]

/-- What decoding a window can answer: the instruction of the row its opcode selects, or the unknown-opcode fault. -/
theorem decoded_cases (w : Window) :
    (∃ r, rowOf w.op = some r ∧ decoded w = .ok (r.build w.a w.b)) ∨
      (rowOf w.op = none ∧ decoded w = .error { kind := .unknownOpcode, value := w.op.toNat }) := by
  unfold decoded decodeWindow
  cases h : rowOf w.op with
  | some r => exact .inl ⟨r, rfl, rfl⟩
  | none => exact .inr ⟨rfl, rfl⟩

end Machine

end Sys2Proof
end

