-- ==== Sys2Proof/Laws/State.lean ====
section
/-! SUPPORT. The fields of State under each update, one lemma per field, and reading a register after each update. -/

namespace Sys2Proof.Machine

@[simp] theorem State.setReg_x (s : State) (i : RegIdx) (v : Byte) : (s.setReg i v).x = s.x.set i.val v i.isLt := rfl
@[simp] theorem State.setReg_pc (s : State) (i : RegIdx) (v : Byte) : (s.setReg i v).pc = s.pc := rfl
@[simp] theorem State.setReg_flE (s : State) (i : RegIdx) (v : Byte) : (s.setReg i v).flE = s.flE := rfl
@[simp] theorem State.setReg_mem (s : State) (i : RegIdx) (v : Byte) : (s.setReg i v).mem = s.mem := rfl
@[simp] theorem State.setReg_status (s : State) (i : RegIdx) (v : Byte) : (s.setReg i v).status = s.status := rfl
@[simp] theorem State.setReg_out (s : State) (i : RegIdx) (v : Byte) : (s.setReg i v).out = s.out := rfl

@[simp] theorem State.setSp_x (s : State) (v : Byte) : (s.setSp v).x = s.x.set Config.spIndex.val v Config.spIndex.isLt := rfl
@[simp] theorem State.setSp_pc (s : State) (v : Byte) : (s.setSp v).pc = s.pc := rfl
@[simp] theorem State.setSp_flE (s : State) (v : Byte) : (s.setSp v).flE = s.flE := rfl
@[simp] theorem State.setSp_mem (s : State) (v : Byte) : (s.setSp v).mem = s.mem := rfl
@[simp] theorem State.setSp_status (s : State) (v : Byte) : (s.setSp v).status = s.status := rfl
@[simp] theorem State.setSp_out (s : State) (v : Byte) : (s.setSp v).out = s.out := rfl

@[simp] theorem State.decSp_x (s : State) : (s.decSp).x = s.x.set Config.spIndex.val (s.sp - 1#8) Config.spIndex.isLt := rfl
@[simp] theorem State.decSp_pc (s : State) : (s.decSp).pc = s.pc := rfl
@[simp] theorem State.decSp_flE (s : State) : (s.decSp).flE = s.flE := rfl
@[simp] theorem State.decSp_mem (s : State) : (s.decSp).mem = s.mem := rfl
@[simp] theorem State.decSp_status (s : State) : (s.decSp).status = s.status := rfl
@[simp] theorem State.decSp_out (s : State) : (s.decSp).out = s.out := rfl

@[simp] theorem State.incSp_x (s : State) : (s.incSp).x = s.x.set Config.spIndex.val (s.sp + 1#8) Config.spIndex.isLt := rfl
@[simp] theorem State.incSp_pc (s : State) : (s.incSp).pc = s.pc := rfl
@[simp] theorem State.incSp_flE (s : State) : (s.incSp).flE = s.flE := rfl
@[simp] theorem State.incSp_mem (s : State) : (s.incSp).mem = s.mem := rfl
@[simp] theorem State.incSp_status (s : State) : (s.incSp).status = s.status := rfl
@[simp] theorem State.incSp_out (s : State) : (s.incSp).out = s.out := rfl

@[simp] theorem State.setPc_x (s : State) (n : Nat) : (s.setPc n).x = s.x := rfl
@[simp] theorem State.setPc_pc (s : State) (n : Nat) : (s.setPc n).pc = n := rfl
@[simp] theorem State.setPc_flE (s : State) (n : Nat) : (s.setPc n).flE = s.flE := rfl
@[simp] theorem State.setPc_mem (s : State) (n : Nat) : (s.setPc n).mem = s.mem := rfl
@[simp] theorem State.setPc_status (s : State) (n : Nat) : (s.setPc n).status = s.status := rfl
@[simp] theorem State.setPc_out (s : State) (n : Nat) : (s.setPc n).out = s.out := rfl

@[simp] theorem State.advance_x (s : State) (n : Nat) : (s.advance n).x = s.x := rfl
@[simp] theorem State.advance_pc (s : State) (n : Nat) : (s.advance n).pc = s.pc + n := rfl
@[simp] theorem State.advance_flE (s : State) (n : Nat) : (s.advance n).flE = s.flE := rfl
@[simp] theorem State.advance_mem (s : State) (n : Nat) : (s.advance n).mem = s.mem := rfl
@[simp] theorem State.advance_status (s : State) (n : Nat) : (s.advance n).status = s.status := rfl
@[simp] theorem State.advance_out (s : State) (n : Nat) : (s.advance n).out = s.out := rfl

@[simp] theorem State.jumpTo_x (s : State) (v : Byte) : (s.jumpTo v).x = s.x := rfl
@[simp] theorem State.jumpTo_pc (s : State) (v : Byte) : (s.jumpTo v).pc = v.toNat := rfl
@[simp] theorem State.jumpTo_flE (s : State) (v : Byte) : (s.jumpTo v).flE = s.flE := rfl
@[simp] theorem State.jumpTo_mem (s : State) (v : Byte) : (s.jumpTo v).mem = s.mem := rfl
@[simp] theorem State.jumpTo_status (s : State) (v : Byte) : (s.jumpTo v).status = s.status := rfl
@[simp] theorem State.jumpTo_out (s : State) (v : Byte) : (s.jumpTo v).out = s.out := rfl

@[simp] theorem State.emit_x (s : State) (e : OutEvent) : (s.emit e).x = s.x := rfl
@[simp] theorem State.emit_pc (s : State) (e : OutEvent) : (s.emit e).pc = s.pc := rfl
@[simp] theorem State.emit_flE (s : State) (e : OutEvent) : (s.emit e).flE = s.flE := rfl
@[simp] theorem State.emit_mem (s : State) (e : OutEvent) : (s.emit e).mem = s.mem := rfl
@[simp] theorem State.emit_status (s : State) (e : OutEvent) : (s.emit e).status = s.status := rfl
@[simp] theorem State.emit_out (s : State) (e : OutEvent) : (s.emit e).out = s.out ++ [e] := rfl

@[simp] theorem State.setStatus_x (s : State) (st : Status) : (s.setStatus st).x = s.x := rfl
@[simp] theorem State.setStatus_pc (s : State) (st : Status) : (s.setStatus st).pc = s.pc := rfl
@[simp] theorem State.setStatus_flE (s : State) (st : Status) : (s.setStatus st).flE = s.flE := rfl
@[simp] theorem State.setStatus_mem (s : State) (st : Status) : (s.setStatus st).mem = s.mem := rfl
@[simp] theorem State.setStatus_status (s : State) (st : Status) : (s.setStatus st).status = st := rfl
@[simp] theorem State.setStatus_out (s : State) (st : Status) : (s.setStatus st).out = s.out := rfl

@[simp] theorem State.takeFault_x (s : State) (r : Raise) : (s.takeFault r).x = s.x := rfl
@[simp] theorem State.takeFault_pc (s : State) (r : Raise) : (s.takeFault r).pc = s.pc := rfl
@[simp] theorem State.takeFault_flE (s : State) (r : Raise) : (s.takeFault r).flE = s.flE := rfl
@[simp] theorem State.takeFault_mem (s : State) (r : Raise) : (s.takeFault r).mem = s.mem := rfl
@[simp] theorem State.takeFault_status (s : State) (r : Raise) : (s.takeFault r).status = .faulted r.kind { pc := s.pc, value := r.value } := rfl
@[simp] theorem State.takeFault_out (s : State) (r : Raise) : (s.takeFault r).out = s.out := rfl

@[simp] theorem State.setFlE_x (s : State) (e : Bit) : (s.setFlE e).x = s.x := rfl
@[simp] theorem State.setFlE_pc (s : State) (e : Bit) : (s.setFlE e).pc = s.pc := rfl
@[simp] theorem State.setFlE_flE (s : State) (e : Bit) : (s.setFlE e).flE = e := rfl
@[simp] theorem State.setFlE_mem (s : State) (e : Bit) : (s.setFlE e).mem = s.mem := rfl
@[simp] theorem State.setFlE_status (s : State) (e : Bit) : (s.setFlE e).status = s.status := rfl
@[simp] theorem State.setFlE_out (s : State) (e : Bit) : (s.setFlE e).out = s.out := rfl

/-! ### Registers after an update -/

theorem State.getReg_eq (s : State) (i : RegIdx) : s.getReg i = s.x[i.val] := rfl

@[simp] theorem State.getReg_setReg (s : State) (i j : RegIdx) (v : Byte) :
    (s.setReg i v).getReg j = if i = j then v else s.getReg j := by
  simp only [State.getReg_eq, State.setReg_x, Vector.getElem_set, Fin.ext_iff]

theorem State.getReg_setReg_self (s : State) (i : RegIdx) (v : Byte) : (s.setReg i v).getReg i = v := by simp

theorem State.getReg_setReg_of_ne (s : State) {i j : RegIdx} (h : i ≠ j) (v : Byte) :
    (s.setReg i v).getReg j = s.getReg j := by simp [h]

theorem State.sp_eq (s : State) : s.sp = s.getReg Config.spIndex := rfl

@[simp] theorem State.sp_setSp (s : State) (v : Byte) : (s.setSp v).sp = v := by
  simp [State.setSp, State.sp]

@[simp] theorem State.getReg_decSp (s : State) (j : RegIdx) :
    s.decSp.getReg j = if Config.spIndex = j then s.sp - 1#8 else s.getReg j := by
  simp [State.decSp, State.setSp]

@[simp] theorem State.getReg_incSp (s : State) (j : RegIdx) :
    s.incSp.getReg j = if Config.spIndex = j then s.sp + 1#8 else s.getReg j := by
  simp [State.incSp, State.setSp]

@[simp] theorem State.getReg_setPc (s : State) (n : Nat) (j : RegIdx) : (s.setPc n).getReg j = s.getReg j := rfl
@[simp] theorem State.getReg_advance (s : State) (n : Nat) (j : RegIdx) : (s.advance n).getReg j = s.getReg j := rfl
@[simp] theorem State.getReg_jumpTo (s : State) (v : Byte) (j : RegIdx) : (s.jumpTo v).getReg j = s.getReg j := rfl
@[simp] theorem State.getReg_emit (s : State) (e : OutEvent) (j : RegIdx) : (s.emit e).getReg j = s.getReg j := rfl
@[simp] theorem State.getReg_setStatus (s : State) (st : Status) (j : RegIdx) : (s.setStatus st).getReg j = s.getReg j := rfl
@[simp] theorem State.getReg_takeFault (s : State) (r : Raise) (j : RegIdx) : (s.takeFault r).getReg j = s.getReg j := rfl
@[simp] theorem State.getReg_setFlE (s : State) (e : Bit) (j : RegIdx) : (s.setFlE e).getReg j = s.getReg j := rfl

/-- Two states with the same fields are the same state. -/
theorem State.ext_fields {s t : State} (hx : ∀ i, s.getReg i = t.getReg i) (hpc : s.pc = t.pc) (hfl : s.flE = t.flE)
    (hmem : s.mem = t.mem) (hst : s.status = t.status) (hout : s.out = t.out) : s = t := by
  have hx' : s.x = t.x := Vector.ext fun i hi => hx ⟨i, hi⟩
  cases s; cases t; simp_all

/-! ### Reset -/

@[simp] theorem State.resetWith_pc (p : Config.Params) : (State.resetWith p).pc = 0 := rfl
@[simp] theorem State.resetWith_flE (p : Config.Params) : (State.resetWith p).flE = 0#1 := rfl
@[simp] theorem State.resetWith_mem (p : Config.Params) : (State.resetWith p).mem = [] := rfl
@[simp] theorem State.resetWith_status (p : Config.Params) : (State.resetWith p).status = .running := rfl
@[simp] theorem State.resetWith_out (p : Config.Params) : (State.resetWith p).out = [] := rfl

theorem Config.memSize_eq : Config.memSize = 256 := rfl

end Sys2Proof.Machine
end

