-- ==== Sys2Proof/Laws/Ops.lean ====
section
/-! SUPPORT. What each shared operation can do, said once: the fault path, the checks, the address decoder, the operand forms, the ALU and the fetch. -/

namespace Sys2Proof.Machine

/-! ### Faults -/

@[simp] theorem attempt_ok {α : Type} (pre : State) (a : α) (k : α → Result) : attempt pre (.ok a) k = k a := rfl

@[simp] theorem attempt_error {α : Type} (pre : State) (r : Raise) (k : α → Result) :
    attempt pre (.error r) k = .next (pre.takeFault r) := rfl

/-- Everything `attempt` can do when it answers a next state: the check passed and the rest answered it, or the check
raised and the state is the one before the step with the fault taken. -/
theorem attempt_eq_next {α : Type} {pre t : State} {c : Except Raise α} {k : α → Result} :
    attempt pre c k = .next t ↔
      (∃ a, c = .ok a ∧ k a = .next t) ∨ (∃ r, c = .error r ∧ t = pre.takeFault r) := by
  cases c with
  | ok a => simp
  | error r => simp [eq_comm]

/-! ### Checks -/

theorem checkReg_of_lt {i : Byte} (h : i.toNat < 8) : checkReg i = .ok ⟨i.toNat, h⟩ := by simp [checkReg, h]

theorem checkReg_of_ge {i : Byte} (h : 8 ≤ i.toNat) :
    checkReg i = .error { kind := .registerIndexOutOfRange, value := i.toNat } := by
  simp [checkReg, show ¬ i.toNat < 8 by omega]

/-- What the register check can answer. -/
theorem checkReg_cases (i : Byte) :
    (∃ h : i.toNat < 8, checkReg i = .ok ⟨i.toNat, h⟩) ∨
      (8 ≤ i.toNat ∧ checkReg i = .error { kind := .registerIndexOutOfRange, value := i.toNat }) := by
  rcases Nat.lt_or_ge i.toNat 8 with h | h
  · exact .inl ⟨h, checkReg_of_lt h⟩
  · exact .inr ⟨h, checkReg_of_ge h⟩

/-- PUSH's range check: it passes unless SP is 0. -/
theorem checkSp_push (v : Byte) :
    checkSp ((v.toNat : Int) - 1) =
      if v.toNat = 0 then .error { kind := .stackPointerOutOfRange, value := -1 } else .ok () := by
  have := v.isLt
  unfold checkSp
  by_cases h : v.toNat = 0
  · simp [h]
  · rw [if_pos (by omega), if_neg h]

/-- POP's range check: it passes unless the new SP is 256. -/
theorem checkSp_pop (ra : RegIdx) (v : Byte) (s : State) :
    checkSp (popNewSp ra v s) =
      if popNewSp ra v s = 256 then .error { kind := .stackPointerOutOfRange, value := 256 } else .ok () := by
  have h : popNewSp ra v s ≤ 256 := by
    unfold popNewSp
    have := (if ra = Config.spIndex then v else s.sp).isLt
    omega
  unfold checkSp
  by_cases h' : popNewSp ra v s = 256
  · simp [h']
  · rw [if_pos (by omega), if_neg h']

/-! ### The address decoder -/

theorem memRead_of_lt {addr : Nat} (h : addr < 256) (s : State) : memRead addr s = .ok (s.mem.read addr) := by
  rw [memRead, if_neg (by unfold Config.memSize; omega)]

theorem memRead_of_ge {addr : Nat} (h : 256 ≤ addr) (s : State) :
    memRead addr s = .error { kind := .addressOutOfRange, value := addr } := by
  rw [memRead, if_pos (by unfold Config.memSize; omega)]

theorem memWrite_of_lt {addr : Nat} (h : addr < 256) (v : Byte) (s : State) :
    memWrite addr v s = .ok { s with mem := s.mem.write addr v } := by
  rw [memWrite, if_neg (by unfold Config.memSize; omega)]

/-- An address from a register is always in range (R41). -/
@[simp] theorem memRead_byte (v : Byte) (s : State) : memRead v.toNat s = .ok (s.mem.read v.toNat) :=
  memRead_of_lt v.isLt s

@[simp] theorem memWrite_pushAddr (v : Byte) (s u : State) :
    memWrite (pushAddr s) v u = .ok { u with mem := u.mem.write (pushAddr s) v } :=
  memWrite_of_lt (BitVec.isLt _) v u

/-- A read sees only memory. -/
theorem memRead_congr {s t : State} (h : s.mem = t.mem) (addr : Nat) : memRead addr s = memRead addr t := by
  simp [memRead, h]

/-! ### The stack -/

/-- Where PUSH stores, when it does: one below SP. -/
theorem pushAddr_eq {s : State} (h : s.sp.toNat ≠ 0) : pushAddr s = s.sp.toNat - 1 := by
  have := s.sp.isLt
  simp only [pushAddr, State.decSp, State.sp_setSp, BitVec.toNat_sub, BitVec.toNat_ofNat]
  omega

theorem pushAddr_lt (s : State) : pushAddr s < 256 := BitVec.isLt _

/-! ### The ALU -/

@[simp] theorem alu_add (a b : RegIdx) (s : State) :
    alu .add a b s = .ok (s.setReg a (wrapByte ((s.getReg a).toNat + (s.getReg b).toNat)), none) := rfl

@[simp] theorem alu_mul (a b : RegIdx) (s : State) :
    alu .mul a b s =
      .ok (s.setReg a (wrapByte ((s.getReg a).toNat * (s.getReg b).toNat)),
        some (wrapByte ((s.getReg a).toNat * (s.getReg b).toNat))) := rfl

@[simp] theorem alu_cmp (a b : RegIdx) (s : State) :
    alu .cmp a b s = .ok (s.setFlE (equalFlag s.flE (s.getReg a) (s.getReg b)), none) := rfl

@[simp] theorem alu_other (sel : Int) (a b : RegIdx) (s : State) :
    alu (.other sel) a b s = .error { kind := .unsupportedAluOp, value := sel } := rfl

@[simp] theorem toNat_wrapByte (n : Nat) : (wrapByte n).toNat = n % 256 := by simp [wrapByte]

/-! ### The fetch -/

/-- The fetch of a window that fits in memory. -/
theorem fetch_of_le {s : State} (h : s.pc ≤ 253) :
    fetch s = .ok { op := s.mem.read s.pc, a := s.mem.read (s.pc + 1), b := s.mem.read (s.pc + 2) } := by
  simp [fetch, memRead_of_lt (show s.pc < 256 by omega), memRead_of_lt (show s.pc + 1 < 256 by omega),
    memRead_of_lt (show s.pc + 2 < 256 by omega)]

/-- The fetch of a window that does not: the first address out of range is reported (R82). -/
theorem fetch_of_ge {s : State} (h : 254 ≤ s.pc) :
    fetch s = .error { kind := .addressOutOfRange, value := (max 256 s.pc : Nat) } := by
  by_cases h0 : 256 ≤ s.pc
  · simp [fetch, memRead_of_ge h0, Nat.max_eq_right h0]
  · by_cases h2 : s.pc = 255
    · simp [fetch, h2, memRead_of_lt (show 255 < 256 by omega) s, memRead_of_ge (show 256 ≤ 255 + 1 by omega)]
    · have : s.pc = 254 := by omega
      simp [fetch, this, memRead_of_lt (show 254 < 256 by omega) s, memRead_of_lt (show 254 + 1 < 256 by omega) s,
        memRead_of_ge (show 256 ≤ 254 + 2 by omega)]

/-- A fetch sees only PC and memory. -/
theorem fetch_congr {s t : State} (hpc : s.pc = t.pc) (hmem : s.mem = t.mem) : fetch s = fetch t := by
  simp [fetch, memRead, hpc, hmem]

end Sys2Proof.Machine
end

