-- ==== Sys2Proof/Laws/PerInstr.lean ====
section
/-! SUPPORT. Families of facts about every instruction, one lemma per constructor: EncodedLength, the number of bytes of an encoding (spec/30_encoding.md R61). -/

namespace Sys2Proof.Laws

/-- The encoding has the length of the instruction's format, and it starts with the opcode. -/
def EncodedLength.Statement (i : Instr) : Prop :=
  (encode i).length = i.format.length ∧ (encode i).head? = some i.opcode

theorem EncodedLength.ldi (a imm : Byte) : EncodedLength.Statement (.ldi a imm) := ⟨rfl, rfl⟩
theorem EncodedLength.prn (a : Byte) : EncodedLength.Statement (.prn a) := ⟨rfl, rfl⟩
theorem EncodedLength.mul (a b : Byte) : EncodedLength.Statement (.mul a b) := ⟨rfl, rfl⟩
theorem EncodedLength.push (a : Byte) : EncodedLength.Statement (.push a) := ⟨rfl, rfl⟩
theorem EncodedLength.pop (a : Byte) : EncodedLength.Statement (.pop a) := ⟨rfl, rfl⟩
theorem EncodedLength.cmp (a b : Byte) : EncodedLength.Statement (.cmp a b) := ⟨rfl, rfl⟩
theorem EncodedLength.jmp (a : Byte) : EncodedLength.Statement (.jmp a) := ⟨rfl, rfl⟩
theorem EncodedLength.jeq (a : Byte) : EncodedLength.Statement (.jeq a) := ⟨rfl, rfl⟩
theorem EncodedLength.jne (a : Byte) : EncodedLength.Statement (.jne a) := ⟨rfl, rfl⟩
theorem EncodedLength.pra (a : Byte) : EncodedLength.Statement (.pra a) := ⟨rfl, rfl⟩
theorem EncodedLength.hlt : EncodedLength.Statement .hlt := ⟨rfl, rfl⟩

end Sys2Proof.Laws
end

