-- ==== Sys2Proof/Laws/Step.lean ====
section
/-! SUPPORT. What each meaning and the step can do, said once, over the shared operations. -/

namespace Sys2Proof.Machine

/-! ### Operand forms: what an instruction answers when its register operands are in range, and when one is not -/

theorem formR_of_lt {a : Byte} (h : a.toNat < 8) (s : State) (k : RegIdx → Result) :
    formR a s k = k ⟨a.toNat, h⟩ := by simp [formR, checkReg_of_lt h]

theorem formR_of_ge {a : Byte} (h : 8 ≤ a.toNat) (s : State) (k : RegIdx → Result) :
    formR a s k = .next (s.takeFault { kind := .registerIndexOutOfRange, value := a.toNat }) := by
  simp [formR, checkReg_of_ge h]

theorem formRI_eq (a imm : Byte) (s : State) (k : RegIdx → Byte → Result) :
    formRI a imm s k = formR a s fun ra => k ra imm := rfl

theorem formRR_eq (a b : Byte) (s : State) (k : RegIdx → RegIdx → Result) :
    formRR a b s k = formR a s fun ra => formR b s fun rb => k ra rb := rfl

/-- Everything the form of one register can do when it answers a next state. -/
theorem formR_eq_next {a : Byte} {s t : State} {k : RegIdx → Result} :
    formR a s k = .next t ↔
      (∃ h : a.toNat < 8, k ⟨a.toNat, h⟩ = .next t) ∨
        (8 ≤ a.toNat ∧ t = s.takeFault { kind := .registerIndexOutOfRange, value := a.toNat }) := by
  rcases Nat.lt_or_ge a.toNat 8 with h | h
  · rw [formR_of_lt h]
    constructor
    · exact fun hk => .inl ⟨h, hk⟩
    · rintro (⟨_, hk⟩ | ⟨h', -⟩)
      · exact hk
      · omega
  · rw [formR_of_ge h]
    constructor
    · intro hk; cases hk; exact .inr ⟨h, rfl⟩
    · rintro (⟨h', -⟩ | ⟨-, rfl⟩)
      · omega
      · rfl

/-! ### What PUSH and POP do once their register operand is checked -/

/-- PUSH with its operand in range. -/
theorem execPush_of_lt {a : Byte} (h : a.toNat < 8) (s : State) :
    execPush a s =
      if s.sp.toNat = 0 then .next (s.takeFault { kind := .stackPointerOutOfRange, value := -1 })
      else .next (State.advance
        { s.decSp with mem := s.mem.write (pushAddr s) (pushValue ⟨a.toNat, h⟩ s) } 2) := by
  rw [execPush, formR_of_lt h, checkSp_push]
  by_cases h0 : s.sp.toNat = 0 <;> simp [h0]

/-- POP with its operand in range. -/
theorem execPop_of_lt {a : Byte} (h : a.toNat < 8) (s : State) :
    execPop a s =
      if popNewSp ⟨a.toNat, h⟩ (s.mem.read s.sp.toNat) s = 256 then
        .next (s.takeFault { kind := .stackPointerOutOfRange, value := 256 })
      else .next ((s.setReg ⟨a.toNat, h⟩ (s.mem.read s.sp.toNat)).incSp.advance 2) := by
  rw [execPop, formR_of_lt h, memRead_byte, attempt_ok, checkSp_pop]
  split <;> simp

/-- Everything PUSH can do when it answers a next state. -/
theorem execPush_eq_next {a : Byte} {s t : State} (h : execPush a s = .next t) :
    (∃ ha : a.toNat < 8, s.sp.toNat ≠ 0 ∧
      t = State.advance { s.decSp with mem := s.mem.write (pushAddr s) (pushValue ⟨a.toNat, ha⟩ s) } 2) ∨
      (8 ≤ a.toNat ∧ t = s.takeFault { kind := .registerIndexOutOfRange, value := a.toNat }) ∨
      (a.toNat < 8 ∧ s.sp.toNat = 0 ∧ t = s.takeFault { kind := .stackPointerOutOfRange, value := -1 }) := by
  rcases Nat.lt_or_ge a.toNat 8 with ha | ha
  · rw [execPush_of_lt ha] at h
    split at h <;> cases h
    · exact .inr (.inr ⟨ha, ‹_›, rfl⟩)
    · exact .inl ⟨ha, ‹_›, rfl⟩
  · rw [execPush, formR_of_ge ha] at h
    cases h
    exact .inr (.inl ⟨ha, rfl⟩)

/-- Everything POP can do when it answers a next state. -/
theorem execPop_eq_next {a : Byte} {s t : State} (h : execPop a s = .next t) :
    (∃ ha : a.toNat < 8, popNewSp ⟨a.toNat, ha⟩ (s.mem.read s.sp.toNat) s ≠ 256 ∧
      t = (s.setReg ⟨a.toNat, ha⟩ (s.mem.read s.sp.toNat)).incSp.advance 2) ∨
      (8 ≤ a.toNat ∧ t = s.takeFault { kind := .registerIndexOutOfRange, value := a.toNat }) ∨
      (∃ ha : a.toNat < 8, popNewSp ⟨a.toNat, ha⟩ (s.mem.read s.sp.toNat) s = 256 ∧
        t = s.takeFault { kind := .stackPointerOutOfRange, value := 256 }) := by
  rcases Nat.lt_or_ge a.toNat 8 with ha | ha
  · rw [execPop_of_lt ha] at h
    split at h <;> cases h
    · exact .inr (.inr ⟨ha, ‹_›, rfl⟩)
    · exact .inl ⟨ha, ‹_›, rfl⟩
  · rw [execPop, formR_of_ge ha] at h
    cases h
    exact .inr (.inl ⟨ha, rfl⟩)

/-! ### The step -/

/-- A step of a running machine. -/
theorem step_running {s : State} (h : s.status = .running) :
    step s = attempt s (fetch s) fun w => attempt s (decoded w) fun i => exec i s := by
  simp [step, cycle, h]

theorem step_halted {s : State} (h : s.status = .halted) : step s = .fault .noStepFromHalted := by
  simp [step, cycle, h]

theorem step_faulted {s : State} {k : FaultKind} {info : FaultInfo} (h : s.status = .faulted k info) :
    step s = .fault (.noStepFromFaulted k info) := by
  simp [step, cycle, h]

/-- Only a running machine answers a next state. -/
theorem running_of_step_next {s t : State} (h : step s = .next t) : s.status = .running := by
  cases hs : s.status with
  | running => rfl
  | halted => rw [step_halted hs] at h; cases h
  | faulted k info => rw [step_faulted hs] at h; cases h

/-- Everything a step can do when it answers a next state: run the instruction of the window at PC, or take the fault of
the fetch or of an unknown opcode. -/
theorem step_eq_next {s t : State} (h : step s = .next t) :
    s.status = .running ∧
      ((∃ i, s.pc ≤ 253 ∧ executing s = some i ∧ exec i s = .next t) ∨
        (executing s = none ∧ 254 ≤ s.pc ∧
          t = s.takeFault { kind := .addressOutOfRange, value := (max 256 s.pc : Nat) }) ∨
        (executing s = none ∧ s.pc ≤ 253 ∧ rowOf (s.mem.read s.pc) = none ∧
          t = s.takeFault { kind := .unknownOpcode, value := (s.mem.read s.pc).toNat })) := by
  have hs := running_of_step_next h
  refine ⟨hs, ?_⟩
  rw [step_running hs] at h
  rcases Nat.lt_or_ge s.pc 254 with hpc | hpc
  · rw [fetch_of_le (by omega), attempt_ok] at h
    rcases decoded_cases { op := s.mem.read s.pc, a := s.mem.read (s.pc + 1), b := s.mem.read (s.pc + 2) } with
      ⟨r, -, hd⟩ | ⟨hr, hd⟩
    · rw [hd, attempt_ok] at h
      exact .inl ⟨_, by omega, by simp [executing, hs, fetch_of_le (show s.pc ≤ 253 by omega), hd, Except.toOption], h⟩
    · rw [hd, attempt_error] at h
      cases h
      exact .inr (.inr ⟨by simp [executing, hs, fetch_of_le (show s.pc ≤ 253 by omega), hd, Except.toOption], by omega, hr, rfl⟩)
  · rw [fetch_of_ge hpc, attempt_error] at h
    cases h
    exact .inr (.inl ⟨by simp [executing, hs, fetch_of_ge hpc], hpc, rfl⟩)

/-- Every instruction answers a next state or takes a fault, which is a next state too: `exec` never stops. -/
theorem exec_answers_next (i : Instr) (s : State) : ∃ t, exec i s = .next t := by
  have hR : ∀ (a : Byte) (k : RegIdx → Result), (∀ ra, ∃ t, k ra = .next t) → ∃ t, formR a s k = .next t := by
    intro a k hk
    rcases Nat.lt_or_ge a.toNat 8 with h | h
    · rw [formR_of_lt h]; exact hk _
    · rw [formR_of_ge h]; exact ⟨_, rfl⟩
  cases i with
  | ldi a imm => exact hR a _ fun _ => ⟨_, rfl⟩
  | prn a => exact hR a _ fun _ => ⟨_, rfl⟩
  | pra a => exact hR a _ fun _ => ⟨_, rfl⟩
  | mul a b => exact hR a _ fun _ => hR b _ fun _ => ⟨_, rfl⟩
  | cmp a b => exact hR a _ fun _ => hR b _ fun _ => ⟨_, rfl⟩
  | jmp a => exact hR a _ fun _ => ⟨_, rfl⟩
  | jeq a => exact hR a _ fun _ => ⟨_, rfl⟩
  | jne a => exact hR a _ fun _ => ⟨_, rfl⟩
  | hlt => exact ⟨_, rfl⟩
  | push a =>
    refine hR a _ fun ra => ?_
    rw [checkSp_push]
    by_cases h : s.sp.toNat = 0 <;> simp [h]
  | pop a =>
    refine hR a _ fun ra => ?_
    rw [memRead_byte, attempt_ok, checkSp_pop]
    split <;> simp

/-! ### Runs -/

theorem run_zero (s : State) : Sys2Proof.core.run 0 s = .next s := rfl

theorem run_succ_of_next {s t : State} (h : step s = .next t) (n : Nat) :
    Sys2Proof.core.run (n + 1) s = Sys2Proof.core.run n t := by
  have h' : Sys2Proof.core.step s = .next t := h
  simp [Host.Core.run, h']

theorem run_succ_of_fault {s : State} {f : Fault} (h : step s = .fault f) (n : Nat) :
    Sys2Proof.core.run (n + 1) s = .fault f := by
  have h' : Sys2Proof.core.step s = .fault f := h
  simp [Host.Core.run, h']

theorem run_succ_of_refused {s : State} {r : Refusal} (h : step s = .refused r) (n : Nat) :
    Sys2Proof.core.run (n + 1) s = .refused r := by
  have h' : Sys2Proof.core.step s = .refused r := h
  simp [Host.Core.run, h']

/-- One more step at the end of a run. -/
theorem run_succ_of_run {n : Nat} {s u : State} (h : Sys2Proof.core.run n s = .next u) :
    Sys2Proof.core.run (n + 1) s = step u := by
  induction n generalizing s with
  | zero =>
    obtain rfl : s = u := Host.Outcome.next.inj h
    cases hs : step s with
    | next t => exact run_succ_of_next hs 0
    | fault f => exact run_succ_of_fault hs 0
    | refused r => exact run_succ_of_refused hs 0
  | succ n ih =>
    cases hs : step s with
    | next t =>
      rw [run_succ_of_next hs] at h ⊢
      exact ih h
    | fault f => rw [run_succ_of_fault hs] at h; cases h
    | refused r => rw [run_succ_of_refused hs] at h; cases h

/-- The last step of a run that answers a next state. -/
theorem run_succ_eq_next {n : Nat} {s t : State} (h : Sys2Proof.core.run (n + 1) s = .next t) :
    ∃ u, Sys2Proof.core.run n s = .next u ∧ step u = .next t := by
  induction n generalizing s with
  | zero =>
    cases hs : step s with
    | next u => rw [run_succ_of_next hs] at h; exact ⟨s, rfl, by rw [hs]; exact h⟩
    | fault f => rw [run_succ_of_fault hs] at h; cases h
    | refused r => rw [run_succ_of_refused hs] at h; cases h
  | succ n ih =>
    cases hs : step s with
    | next u =>
      rw [run_succ_of_next hs] at h
      obtain ⟨v, hv, hvt⟩ := ih h
      exact ⟨v, by rw [run_succ_of_next hs]; exact hv, hvt⟩
    | fault f => rw [run_succ_of_fault hs] at h; cases h
    | refused r => rw [run_succ_of_refused hs] at h; cases h

/-- What every step keeps, every run keeps. -/
theorem run_keeps {P : State → Prop} (hstep : ∀ s t, P s → step s = .next t → P t) {n : Nat} {s t : State}
    (hs : P s) (h : Sys2Proof.core.run n s = .next t) : P t := by
  induction n generalizing t with
  | zero => cases h; exact hs
  | succ n ih =>
    obtain ⟨u, hu, hut⟩ := run_succ_eq_next h
    exact hstep u t (ih hu) hut

end Sys2Proof.Machine
end

