-- ==== Sys2Proof/Tests/Slice0.lean ====
section
/-! SUPPORT. The model's own tests. Expected results are the vectors of spec/95_test_vectors.md (named E, L, M, C, D, S, J as there) or the encodings of spec/30_encoding.md R64, written out by hand. Then a witness for the hypotheses of each statement of Certificates/Slice0/Obligations.lean, at the boundary values of its clauses. -/

namespace Sys2Proof.Tests

open Sys2Proof.Machine

/-! ### Helpers -/

/-- A running state with the given registers, PC, flag and memory, and no output. -/
def st (x : Vector Byte 8) (pc : Nat) (fl : Bit) (mem : Memory) : State :=
  { x := x, pc := pc, flE := fl, mem := mem, status := .running, out := [] }

/-- r0..r7 with SP = 0xF4. -/
def regs (r0 r1 r2 r3 : Byte) : Vector Byte 8 := #v[r0, r1, r2, r3, 0#8, 0#8, 0#8, 0xF4#8]

/-- r0 and SP, the other registers 0. -/
def regsSp (r0 sp : Byte) : Vector Byte 8 := #v[r0, 0#8, 0#8, 0#8, 0#8, 0#8, 0#8, sp]

/-- What `f` reads in the next state, if there is one. -/
def after {α : Type} (r : Result) (f : State → α) : Option α :=
  match r with
  | .next t => some (f t)
  | .fault _ => none
  | .refused _ => none

/-- The reset state with three bytes at 0. -/
def booted (b0 b1 b2 : Byte) : State := { State.reset with mem := State.reset.mem.writeBytes 0 [b0, b1, b2] }

/-! ### WellFormed: an ill-formed term for each check -/

theorem test_wf_refuses_register_a : Instr.wf (.ldi 8#8 5#8) = false := by decide
theorem test_wf_refuses_register_b : Instr.wf (.mul 0#8 200#8) = false := by decide
theorem test_wf_accepts_every_immediate : Instr.wf (.ldi 7#8 255#8) = true := by decide

/-! ### Decoding: one word of every constructor, bit by bit from R64 -/

theorem test_decode_ldi : decodeWindow 0b10000010#8 0b00000000#8 0b00001000#8 = .ok (.ldi 0#8 8#8) := by decide
theorem test_decode_prn : decodeWindow 0b01000111#8 0b00000101#8 0b11111111#8 = .ok (.prn 5#8) := by decide
theorem test_decode_mul : decodeWindow 0b10100010#8 0b00000000#8 0b00000001#8 = .ok (.mul 0#8 1#8) := by decide
theorem test_decode_push : decodeWindow 0b01000101#8 0b00000111#8 0b00000000#8 = .ok (.push 7#8) := by decide
theorem test_decode_pop : decodeWindow 0b01000110#8 0b00000001#8 0b00000000#8 = .ok (.pop 1#8) := by decide
theorem test_decode_cmp : decodeWindow 0b10100111#8 0b00000011#8 0b00000100#8 = .ok (.cmp 3#8 4#8) := by decide
theorem test_decode_jmp : decodeWindow 0b01010100#8 0b00000011#8 0b00000000#8 = .ok (.jmp 3#8) := by decide
theorem test_decode_jeq : decodeWindow 0b01010101#8 0b00000010#8 0b00000000#8 = .ok (.jeq 2#8) := by decide
theorem test_decode_jne : decodeWindow 0b01010110#8 0b00000011#8 0b00000000#8 = .ok (.jne 3#8) := by decide
theorem test_decode_pra : decodeWindow 0b01001000#8 0b00000010#8 0b00000000#8 = .ok (.pra 2#8) := by decide
theorem test_decode_hlt : decodeWindow 0b00000001#8 0b11111111#8 0b11111111#8 = .ok .hlt := by decide
theorem test_decode_add_is_unknown :
    decodeWindow 0b10100000#8 0b00000000#8 0b00000001#8 = .error (.unknownOpcode 0xA0#8) := by decide
theorem test_decode_truncated : decode [0b10000010#8, 0b00000000#8] = .error .truncated := by decide
theorem test_decode_table_word : decodeTableWord 16 0b00000101_01000111 = some (.prn 5#8) := by decide

/-! ### The loop and dispatch -/

/-- L1 -/
theorem test_hlt : after (step (st (regs 0 0 0 0) 11 0 [(11, 1#8)])) (fun t => (t.status, t.pc)) = some (.halted, 11) := by decide
/-- L3: the fetch comes before the opcode is looked at -/
theorem test_hlt_at_254 : after (step (st (regs 0 0 0 0) 254 0 [(254, 1#8)])) State.status =
    some (.faulted .addressOutOfRange { pc := 254, value := 256 }) := by decide
/-- L5 -/
theorem test_fetch_at_256 : after (step (st (regs 0 0 0 0) 256 0 [])) State.status =
    some (.faulted .addressOutOfRange { pc := 256, value := 256 }) := by decide
/-- L6 -/
theorem test_unknown_255 : after (step (booted 0xFF#8 0#8 0#8)) State.status =
    some (.faulted .unknownOpcode { pc := 0, value := 255 }) := by decide
/-- L7: empty memory -/
theorem test_unknown_0 : after (step State.reset) State.status = some (.faulted .unknownOpcode { pc := 0, value := 0 }) := by decide
/-- L10 -/
theorem test_ldi_at_253 : after (step (st (regs 9 0 0 0) 253 0 [(253, 0x82#8), (255, 5#8)])) (fun t => (t.getReg 0, t.pc)) =
    some (5#8, 256) := by decide
theorem test_no_step_from_halted : step { State.reset with status := .halted } = .fault .noStepFromHalted := rfl

/-! ### The instructions -/

/-- D3 -/
theorem test_ldi_sp : after (step (booted 0x82#8 7#8 0x10#8)) (fun t => (t.sp, t.pc)) = some (16#8, 3) := by decide
/-- D5 -/
theorem test_ldi_bad_register : after (step (booted 0x82#8 0xFF#8 5#8)) (fun t => (t.status, t.pc)) =
    some (.faulted .registerIndexOutOfRange { pc := 0, value := 255 }, 0) := by decide
/-- D7 -/
theorem test_prn : after (exec (.prn 0#8) (st (regs 255 0 0 0) 0 0 [])) (fun t => (t.out, t.pc)) = some ([.outDec 255#8], 2) := by decide
/-- L11 -/
theorem test_prn_bad_register : after (step (booted 0x47#8 9#8 0#8)) State.status =
    some (.faulted .registerIndexOutOfRange { pc := 0, value := 9 }) := by decide
/-- D8 -/
theorem test_pra : after (exec (.pra 2#8) (st (regs 0 0 65 0) 0 0 [])) (fun t => (t.out, t.pc)) = some ([.outChar 65#8], 2) := by decide
/-- M4 -/
theorem test_mul_wraps : after (exec (.mul 0#8 1#8) (st (regs 255 255 0 0) 0 0 [])) (fun t => (t.getReg 0, t.getReg 1, t.pc)) =
    some (1#8, 255#8, 3) := by decide
/-- M12: A is checked before B -/
theorem test_mul_checks_a_first : after (exec (.mul 9#8 10#8) (st (regs 0 0 0 0) 0 0 [])) State.status =
    some (.faulted .registerIndexOutOfRange { pc := 0, value := 9 }) := by decide
/-- C1 -/
theorem test_cmp_equal : after (exec (.cmp 0#8 1#8) (st (regs 5 5 0 0) 0 0 [])) (fun t => (t.flE, t.pc)) = some (1#1, 3) := by decide
/-- C3: never cleared -/
theorem test_cmp_sticky : after (exec (.cmp 0#8 1#8) (st (regs 5 6 0 0) 0 1 [])) State.flE = some 1#1 := by decide
/-- S1 -/
theorem test_push : after (exec (.push 0#8) (st (regs 42 0 0 0) 0 0 [])) (fun t => (t.sp, t.mem, t.pc)) =
    some (0xF3#8, [(0xF3, 42#8)], 2) := by decide
/-- S4 -/
theorem test_push_sp : after (exec (.push 7#8) (st (regs 0 0 0 0) 0 0 [])) (fun t => (t.sp, t.mem)) =
    some (0xF3#8, [(0xF3, 0xF3#8)]) := by decide
/-- S8 -/
theorem test_pop : after (exec (.pop 1#8) (st (regsSp 0 254) 0 0 [(254, 7#8)])) (fun t => (t.getReg 1, t.sp, t.mem, t.pc)) =
    some (7#8, 255#8, [(254, 7#8)], 2) := by decide
/-- S10 -/
theorem test_pop_sp : after (exec (.pop 7#8) (st (regsSp 0 0xF3) 0 0 [(0xF3, 0xF0#8)])) State.sp = some 0xF1#8 := by decide
/-- J2 -/
theorem test_jmp : after (exec (.jmp 3#8) (st (regs 0 0 0 254) 20 0 [])) State.pc = some 254 := by decide
/-- J4 -/
theorem test_jeq_taken : after (exec (.jeq 2#8) (st (regs 0 0 40 0) 30 1 [])) State.pc = some 40 := by decide
/-- J6: checked though not taken -/
theorem test_jeq_bad_register : after (exec (.jeq 9#8) (st (regs 0 0 0 0) 0 0 [])) State.status =
    some (.faulted .registerIndexOutOfRange { pc := 0, value := 9 }) := by decide
/-- J7 -/
theorem test_jne_taken : after (exec (.jne 3#8) (st (regs 0 0 0 12) 18 0 [])) State.pc = some 12 := by decide
/-- J8 -/
theorem test_jne_not_taken : after (exec (.jne 3#8) (st (regs 0 0 0 12) 18 1 [])) State.pc = some 20 := by decide

/-! ### Memory, host interface, assembler -/

theorem test_write_zero_removes_the_cell : Memory.write [(3, 7#8), (9, 1#8)] 3 0#8 = [(9, 1#8)] := by decide
theorem test_write_keeps_order : Memory.write [(3, 7#8), (9, 1#8)] 5 2#8 = [(3, 7#8), (5, 2#8), (9, 1#8)] := by decide
theorem test_load_refuses_257 (b : Byte) : load (List.replicate 257 b) State.reset = .refused (.imageTooLong 257) := by
  rw [load, if_pos (by rw [List.length_replicate]; decide), List.length_replicate]
theorem test_snapshot_absent_cells : (snapshot (st (regs 0 0 0 0) 255 0 [])).cell1 = none := by decide
theorem test_fetch_word_runs : after (step (State.reset.withFetchWord 24 0b00001000_00000000_10000010)) (fun t => (t.getReg 0, t.pc)) =
    some (8#8, 3) := by decide
theorem test_assemble_hex_and_blanks : parseAsm "LDI SP , 0x1F".toList = some (.ldi 7#8 31#8) := by decide
theorem test_assemble_binary : parseAsm "LDI r3,0b101".toList = some (.ldi 3#8 5#8) := by decide
theorem test_assemble_no_register_8 : parseAsm "PRN r8".toList = none := by decide

/-! ### Witnesses: a concrete state and operands for the hypotheses of each statement and each of its clauses -/

/-- The register clauses of LdiLoadsImmediate, PrnEmitsDecimalEvent, PraEmitsCharacterEvent, JmpReplacesPc,
LoadThenPrintShowsTheValue: both sides of the boundary. -/
theorem witness_register_clauses : (7#8 : Byte).toNat < 8 ∧ 8 ≤ (8#8 : Byte).toNat ∧ 8 ≤ (255#8 : Byte).toNat := by decide

theorem witness_mul_cmp_clauses :
    ((7#8 : Byte).toNat < 8 ∧ (0#8 : Byte).toNat < 8) ∧ 8 ≤ (8#8 : Byte).toNat ∧ ((7#8 : Byte).toNat < 8 ∧ 8 ≤ (8#8 : Byte).toNat) ∧
    (regs 5 5 6 0)[0] = (regs 5 5 6 0)[1] ∧ (regs 5 5 6 0)[0] ≠ (regs 5 5 6 0)[2] := by decide

/-- PushDecrementsThenStores: SP of 1, 255 and 0. -/
theorem witness_push_clauses :
    (regsSp 0 1)[7].toNat ≠ 0 ∧ (regsSp 0 255)[7].toNat ≠ 0 ∧ (regsSp 0 0)[7].toNat = 0 ∧ 8 ≤ (8#8 : Byte).toNat := by decide

/-- PopReadsThenIncrements: SP of 254 and 255 into r0; popped bytes of 254 and 255 into SP. -/
theorem witness_pop_clauses :
    ((0#8 : Byte).toNat ≠ 7 ∧ (regsSp 0 254)[7].toNat < 255) ∧ (regsSp 0 255)[7].toNat = 255 ∧
    ((7#8 : Byte).toNat = 7 ∧ (Memory.read [(9, 254#8)] (regsSp 0 9)[7].toNat).toNat < 255) ∧
    (Memory.read [(9, 255#8)] (regsSp 0 9)[7].toNat).toNat = 255 ∧ 8 ≤ (8#8 : Byte).toNat := by decide

/-- JeqJumpsWhenFlagSet and JneJumpsWhenFlagClear: both values of the flag. -/
theorem witness_jump_clauses :
    (7#8 : Byte).toNat < 8 ∧ (st (regs 0 0 0 0) 0 1 []).flE = 1#1 ∧ (st (regs 0 0 0 0) 0 0 []).flE = 0#1 ∧
    8 ≤ (8#8 : Byte).toNat := by decide

/-- HltHalts, FetchReadsThreeBytesOrFaults, FaultsInPriorityOrder: PC at 253, 254, 255 and 256. -/
theorem witness_fetch_clauses :
    (st (regs 0 0 0 0) 253 0 [(253, 1#8)]).status = .running ∧ (st (regs 0 0 0 0) 253 0 [(253, 1#8)]).pc ≤ 253 ∧
    (st (regs 0 0 0 0) 253 0 [(253, 1#8)]).mem.read 253 = 0b00000001#8 ∧
    (st (regs 0 0 0 0) 254 0 []).pc = 254 ∧ (st (regs 0 0 0 0) 255 0 []).pc = 255 ∧ 256 ≤ (st (regs 0 0 0 0) 256 0 []).pc := by
  decide

/-- RegisterWritersFrame -/
theorem witness_register_writers : ∃ t, exec (.mul 7#8 0#8) (st (regs 2 0 0 0) 0 0 []) = .next t ∧ Instr.wf (.mul 7#8 0#8) = true :=
  ⟨_, rfl, by decide⟩

/-- NonWritersFrame, one instruction of each clause -/
theorem witness_non_writers :
    (∃ t, exec (.cmp 0#8 7#8) (st (regs 2 0 0 0) 0 0 []) = .next t) ∧ (∃ t, exec (.prn 7#8) (st (regs 2 0 0 0) 0 0 []) = .next t) ∧
    (∃ t, exec (.jeq 7#8) (st (regs 2 0 0 0) 0 0 []) = .next t) ∧ (∃ t, exec .hlt (st (regs 2 0 0 0) 0 0 []) = .next t) :=
  ⟨⟨_, rfl⟩, ⟨_, rfl⟩, ⟨_, rfl⟩, ⟨_, rfl⟩⟩

/-- PushFrame: a PUSH that stores at 0, one that faults with SP = 0, one that faults with its register. -/
theorem witness_push_frame :
    (∃ t, (st (regsSp 9 1) 0 0 []).mem.wf = true ∧ exec (.push 0#8) (st (regsSp 9 1) 0 0 []) = .next t ∧ (st (regsSp 9 1) 0 0 []).sp ≠ 0#8) ∧
    (∃ t, exec (.push 0#8) (st (regsSp 9 0) 0 0 []) = .next t ∧ (st (regsSp 9 0) 0 0 []).sp = 0#8) ∧
    (∃ t, exec (.push 8#8) (st (regsSp 9 1) 0 0 []) = .next t ∧ 8 ≤ (8#8 : Byte).toNat) :=
  ⟨⟨_, by decide, rfl, by decide⟩, ⟨_, rfl, by decide⟩, ⟨_, rfl, by decide⟩⟩

/-- PopFrame: a POP that completes, one that faults. -/
theorem witness_pop_frame :
    (∃ t, exec (.pop 0#8) (st (regsSp 9 254) 0 0 []) = .next t) ∧ (∃ t, exec (.pop 0#8) (st (regsSp 9 255) 0 0 []) = .next t) :=
  ⟨exec_answers_next _ _, exec_answers_next _ _⟩

/-- UnknownOpcodesRejected, UnknownOpcodeFaults: 0x00, 0xA0 and 0xFF are outside the list, 0x01 is in it. -/
theorem witness_unknown :
    0x00#8 ∉ knownOpcodes ∧ 0xA0#8 ∉ knownOpcodes ∧ 0xFF#8 ∉ knownOpcodes ∧ 0x01#8 ∈ knownOpcodes ∧
    (booted 0xA0#8 0#8 0#8).status = .running ∧ (booted 0xA0#8 0#8 0#8).pc ≤ 253 ∧ (booted 0xA0#8 0#8 0#8).mem.read 0 ∉ knownOpcodes := by
  decide

/-- StepRunsDecodedInstruction and StoredEncodingExecutes, at the last PC that can be fetched. -/
theorem witness_step_runs_decoded :
    let s := st (regs 0 0 0 0) 253 0 [(253, 0x82#8), (255, 5#8)]
    s.status = .running ∧ s.pc ≤ 253 ∧
    decodeWindow (s.mem.read s.pc) (s.mem.read (s.pc + 1)) (s.mem.read (s.pc + 2)) = .ok (.ldi 0#8 5#8) ∧
    [s.mem.read s.pc, s.mem.read (s.pc + 1), s.mem.read (s.pc + 2)] = encode (.ldi 0#8 5#8) := by decide

/-- FetchWordRunsItsInstruction -/
theorem witness_fetch_word :
    (st (regs 0 0 0 0) 253 0 [(253, 9#8)]).mem.wf = true ∧ decodeTableWord 16 0b00000101_01000111 = some (.prn 5#8) := by decide

/-- FaultsInPriorityOrder: an executing instruction for each clause on one. -/
theorem witness_priority :
    executing (booted 0xA2#8 0#8 8#8) = some (.mul 0#8 8#8) ∧
    (Instr.mul 0#8 8#8).regOperands.find? (fun b => decide (8 ≤ b.toNat)) = some 8#8 ∧
    executing (st (regsSp 0 0) 0 0 [(0, 0x45#8)]) = some (.push 0#8) ∧ (st (regsSp 0 0) 0 0 [(0, 0x45#8)]).sp.toNat = 0 ∧
    executing (st (regsSp 0 255) 0 0 [(0, 0x46#8)]) = some (.pop 0#8) ∧ (st (regsSp 0 255) 0 0 [(0, 0x46#8)]).sp.toNat = 255 ∧
    executing (st (regsSp 0 9) 0 0 [(0, 0x46#8), (1, 7#8), (9, 255#8)]) = some (.pop 7#8) ∧
    executing (booted 0x82#8 7#8 0#8) = some (.ldi 7#8 0#8) ∧ Instr.wf (.ldi 7#8 0#8) = true := by decide

/-- StepIsTotalOnRunningStates -/
theorem witness_statuses :
    State.reset.status = .running ∧ ({ State.reset with status := .halted } : State).status = .halted ∧
    ({ State.reset with status := .faulted .unknownOpcode { pc := 0, value := 0 } } : State).status =
      .faulted .unknownOpcode { pc := 0, value := 0 } := by decide

/-- FaultsArePrecise, OutputOnlyGrowsAndIsNeverRead, OnlyPushChangesMemory (with a PUSH): steps that answer a next state. -/
theorem witness_steps :
    (∃ t, step State.reset = .next t ∧ t.status = .faulted .unknownOpcode { pc := 0, value := 0 }) ∧
    (∃ t, step (booted 0x48#8 7#8 0#8) = .next t ∧ t.out = [.outChar 0xF4#8]) ∧
    (∃ t, (booted 0x45#8 7#8 0#8).mem.wf = true ∧ step (booted 0x45#8 7#8 0#8) = .next t ∧
      t.mem.read 0xF3 ≠ (booted 0x45#8 7#8 0#8).mem.read 0xF3) :=
  ⟨⟨_, rfl, rfl⟩, ⟨_, rfl, by decide⟩, ⟨_, by decide, rfl, by decide⟩⟩

/-- InstructionsRaiseExactlyTheirFaults: a fault of each kind that instructions raise. -/
theorem witness_may_raise :
    mayRaise (.cmp 7#8 8#8) .registerIndexOutOfRange 8 ∧ mayRaise (.push 7#8) .stackPointerOutOfRange (-1) ∧
    mayRaise (.pop 7#8) .stackPointerOutOfRange 256 :=
  ⟨⟨8#8, by decide, by decide⟩, .inl ⟨7#8, rfl, by decide, rfl⟩, .inr ⟨7#8, rfl, by decide, rfl⟩⟩

/-- PcAdvancesOrIsReplaced: a next state that runs on, and one that does not. -/
theorem witness_pc :
    (∃ t, exec (.jne 7#8) (st (regs 0 0 0 0) 253 0 []) = .next t ∧ t.status = .running) ∧
    (∃ t, exec .hlt (st (regs 0 0 0 0) 253 0 []) = .next t ∧ t.status ≠ .running) :=
  ⟨⟨_, rfl, rfl⟩, ⟨_, rfl, by decide⟩⟩

/-- StepKeepsInvariant -/
theorem witness_invariant : (st (regs 0 0 0 0) 253 0 [(253, 0x45#8)]).Inv ∧ ∃ t, step (st (regs 0 0 0 0) 253 0 [(253, 0x45#8)]) = .next t :=
  ⟨⟨by decide, by decide, trivial⟩, ⟨_, rfl⟩⟩

/-- InvariantAtBoot, LoadPlacesImageAtZero, FlagTellsWhetherAnyCmpFoundEquality: an image of one byte, and one step of
its run. -/
theorem witness_boot :
    ∃ s t, boot Config.reference [0xA7#8] = .next s ∧ Sys2Proof.core.run 1 s = .next t ∧ t.flE = 1#1 :=
  ⟨_, _, rfl, rfl, rfl⟩

theorem witness_load_lengths : (List.replicate 256 (0#8 : Byte)).length ≤ 256 ∧ 256 < (List.replicate 257 (0#8 : Byte)).length := by
  rw [List.length_replicate, List.length_replicate]
  decide

/-- FlagIsWrittenByCmpAndReadByConditionalJumps: a step whose CMP finds equality, and one that is no CMP. -/
theorem witness_flag :
    cmpFindsEqual (booted 0xA7#8 0#8 1#8) ∧ ¬ cmpFindsEqual State.reset ∧
    (∃ t, exec (.cmp 0#8 7#8) (st (regs 0 0 0 0) 0 1 []) = .next t) :=
  ⟨⟨0, 1, by decide, by decide⟩, (fun ⟨_, _, h, _⟩ => nomatch h), ⟨_, rfl⟩⟩

/-- EveryRunHangsOrEndsExactlyOnce, its second alternative: a running state whose HLT ends the run after one step
(the first alternative is `witness_hang`). -/
theorem witness_every_run_ends :
    (booted 0x01#8 0#8 0#8).status = .running ∧
    (∃ t, Sys2Proof.core.run 1 (booted 0x01#8 0#8 0#8) = .next t ∧ t.status = .halted) ∧
    Sys2Proof.core.run 2 (booted 0x01#8 0#8 0#8) = .fault .noStepFromHalted :=
  ⟨rfl, ⟨_, rfl, rfl⟩, rfl⟩

/-- JumpToItselfHangs (J3), EveryRunHangsOrEndsExactlyOnce (its first alternative) -/
theorem witness_hang :
    let s := st (regs 0 0 0 0) 0 0 [(0, 0x54#8)]
    s.status = .running ∧ s.pc ≤ 253 ∧ s.mem.read s.pc = 0x54#8 ∧ s.mem.read (s.pc + 1) = 0#8 ∧ s.x[0].toNat = s.pc := by decide

/-- AddressDecoderReadsAndWritesOneCell, CanonicalMemoriesAreEqualWhenTheyReadEqual,
ObservationIsTheWholeFinalState: a canonical memory at the ends of the address space, and one that is not. -/
theorem witness_memory :
    Memory.wf [(0, 1#8), (255, 2#8)] = true ∧ Memory.wf [(255, 2#8), (0, 1#8)] = false ∧ Memory.wf [(3, 0#8)] = false ∧
    255 < 256 ∧ ({ State.reset with status := .halted } : State).status ≠ .running := by decide

/-- PushThenPopRoundTrips, PushedByteIsFetchedAtOnce: SP of 1 and 255, and a window that covers the pushed byte. -/
theorem witness_push_pop :
    (6#8 : Byte).toNat < 7 ∧ 1 ≤ (st (regsSp 9 1) 0 0 []).sp.toNat ∧ 1 ≤ (st (regsSp 9 255) 0 0 []).sp.toNat ∧
    (∃ t, exec (.push 0#8) (st (regsSp 9 3) 0 0 []) = .next t ∧ t.pc ≤ 253 ∧ t.pc + 1 = (st (regsSp 9 3) 0 0 []).sp.toNat) ∧
    (∃ t, exec (.push 0#8) (st (regsSp 9 4) 0 0 []) = .next t ∧ t.pc + 2 = (st (regsSp 9 4) 0 0 []).sp.toNat) ∧
    (∃ t, exec (.push 0#8) (st (regsSp 9 5) 0 0 []) = .next t ∧ t.pc + 3 = (st (regsSp 9 5) 0 0 []).sp.toNat) :=
  ⟨by decide, by decide, by decide, ⟨_, rfl, by decide, by decide⟩, ⟨_, rfl, by decide⟩, ⟨_, rfl, by decide⟩⟩

/-- CompareThenJumpSeesStickyFlag, AssemblerRoundTrip -/
theorem witness_well_formed : Instr.wf (.cmp 7#8 0#8) = true ∧ Instr.wf .hlt = true := by decide

end Sys2Proof.Tests
end

section
/-! PROOFS. The state family (spec/10_state.md): what `exec` does when it answers a next state, said once, and from it
what a step does to the program counter (R26) and to the equal flag (R29). -/

namespace Sys2Proof.Machine

/-! ### What an instruction does: it completes, or it takes a fault of its row -/

/-- `Completes i s t`: every check of `i` passes in `s`, and `t` is the state its writes leave. -/
inductive Completes : Instr → State → State → Prop where
  | ldi {a imm : Byte} {s : State} (ha : a.toNat < 8) :
    Completes (.ldi a imm) s ((s.setReg ⟨a.toNat, ha⟩ imm).advance 3)
  | prn {a : Byte} {s : State} (ha : a.toNat < 8) :
    Completes (.prn a) s ((s.emit (.outDec (s.getReg ⟨a.toNat, ha⟩))).advance 2)
  | mul {a b : Byte} {s : State} (ha : a.toNat < 8) (hb : b.toNat < 8) :
    Completes (.mul a b) s ((s.setReg ⟨a.toNat, ha⟩
      (wrapByte ((s.getReg ⟨a.toNat, ha⟩).toNat * (s.getReg ⟨b.toNat, hb⟩).toNat))).advance 3)
  | push {a : Byte} {s : State} (ha : a.toNat < 8) (hsp : s.sp.toNat ≠ 0) :
    Completes (.push a) s
      (State.advance { s.decSp with mem := s.mem.write (pushAddr s) (pushValue ⟨a.toNat, ha⟩ s) } 2)
  | pop {a : Byte} {s : State} (ha : a.toNat < 8)
    (hsp : popNewSp ⟨a.toNat, ha⟩ (s.mem.read s.sp.toNat) s ≠ 256) :
    Completes (.pop a) s ((s.setReg ⟨a.toNat, ha⟩ (s.mem.read s.sp.toNat)).incSp.advance 2)
  | cmp {a b : Byte} {s : State} (ha : a.toNat < 8) (hb : b.toNat < 8) :
    Completes (.cmp a b) s
      ((s.setFlE (equalFlag s.flE (s.getReg ⟨a.toNat, ha⟩) (s.getReg ⟨b.toNat, hb⟩))).advance 3)
  | jmp {a : Byte} {s : State} (ha : a.toNat < 8) : Completes (.jmp a) s (s.jumpTo (s.getReg ⟨a.toNat, ha⟩))
  | jeq {a : Byte} {s : State} (ha : a.toNat < 8) :
    Completes (.jeq a) s (if s.equalSet then s.jumpTo (s.getReg ⟨a.toNat, ha⟩) else s.advance 2)
  | jne {a : Byte} {s : State} (ha : a.toNat < 8) :
    Completes (.jne a) s (if s.equalClear then s.jumpTo (s.getReg ⟨a.toNat, ha⟩) else s.advance 2)
  | pra {a : Byte} {s : State} (ha : a.toNat < 8) :
    Completes (.pra a) s ((s.emit (.outChar (s.getReg ⟨a.toNat, ha⟩))).advance 2)
  | hlt {s : State} : Completes .hlt s (s.setStatus .halted)

/-- `TakesFault i s t`: `t` is `s` with a fault taken that the table of R148 allows `i`. -/
def TakesFault (i : Instr) (s t : State) : Prop := ∃ r : Raise, mayRaise i r.kind r.value ∧ t = s.takeFault r

theorem takesFault_of_mayRaise {i : Instr} {s : State} {kind : FaultKind} {value : Int} (h : mayRaise i kind value) :
    TakesFault i s (s.takeFault { kind := kind, value := value }) :=
  ⟨_, h, rfl⟩

/-- The fault of the first register operand that is out of range (R90). -/
theorem takesFault_of_find {i : Instr} {s : State} {b : Byte}
    (h : i.regOperands.find? (fun b => decide (8 ≤ b.toNat)) = some b) :
    TakesFault i s (s.takeFault { kind := .registerIndexOutOfRange, value := b.toNat }) :=
  takesFault_of_mayRaise ⟨b, h, rfl⟩

/-- An instruction of format R or RI completes as its continuation says, or faults on its register. -/
theorem completes_or_takesFault_of_formR {i : Instr} {a : Byte} {s t : State} {k : RegIdx → Result}
    (hi : i.regOperands = [a]) (hk : ∀ ha : a.toNat < 8, ∃ u, k ⟨a.toNat, ha⟩ = .next u ∧ Completes i s u)
    (h : formR a s k = .next t) : Completes i s t ∨ TakesFault i s t := by
  obtain ⟨ha, h⟩ | ⟨ha, rfl⟩ := formR_eq_next.1 h
  · obtain ⟨u, hu, hc⟩ := hk ha
    obtain rfl : u = t := Host.Outcome.next.inj (hu.symm.trans h)
    exact .inl hc
  · exact .inr (takesFault_of_find (by simp [hi, ha]))

/-- An instruction of format RR completes as its continuation says, or faults on A, or else on B. -/
theorem completes_or_takesFault_of_formRR {i : Instr} {a b : Byte} {s t : State} {k : RegIdx → RegIdx → Result}
    (hi : i.regOperands = [a, b])
    (hk : ∀ (ha : a.toNat < 8) (hb : b.toNat < 8),
      ∃ u, k ⟨a.toNat, ha⟩ ⟨b.toNat, hb⟩ = .next u ∧ Completes i s u)
    (h : formRR a b s k = .next t) : Completes i s t ∨ TakesFault i s t := by
  rw [formRR_eq] at h
  obtain ⟨ha, h⟩ | ⟨ha, rfl⟩ := formR_eq_next.1 h
  · obtain ⟨hb, h⟩ | ⟨hb, rfl⟩ := formR_eq_next.1 h
    · obtain ⟨u, hu, hc⟩ := hk ha hb
      obtain rfl : u = t := Host.Outcome.next.inj (hu.symm.trans h)
      exact .inl hc
    · exact .inr (takesFault_of_find (by simp [hi, ha, hb]))
  · exact .inr (takesFault_of_find (by simp [hi, ha]))

/-- Everything an instruction can do when it answers a next state. -/
theorem exec_eq_next {i : Instr} {s t : State} (h : exec i s = .next t) : Completes i s t ∨ TakesFault i s t := by
  cases i with
  | ldi a imm => exact completes_or_takesFault_of_formR rfl (fun ha => ⟨_, rfl, .ldi ha⟩) h
  | prn a => exact completes_or_takesFault_of_formR rfl (fun ha => ⟨_, rfl, .prn ha⟩) h
  | mul a b => exact completes_or_takesFault_of_formRR rfl (fun ha hb => ⟨_, rfl, .mul ha hb⟩) h
  | cmp a b => exact completes_or_takesFault_of_formRR rfl (fun ha hb => ⟨_, rfl, .cmp ha hb⟩) h
  | jmp a => exact completes_or_takesFault_of_formR rfl (fun ha => ⟨_, rfl, .jmp ha⟩) h
  | jeq a => exact completes_or_takesFault_of_formR rfl (fun ha => ⟨_, rfl, .jeq ha⟩) h
  | jne a => exact completes_or_takesFault_of_formR rfl (fun ha => ⟨_, rfl, .jne ha⟩) h
  | pra a => exact completes_or_takesFault_of_formR rfl (fun ha => ⟨_, rfl, .pra ha⟩) h
  | hlt => cases h; exact .inl .hlt
  | push a =>
    obtain ⟨ha, hsp, rfl⟩ | ⟨ha, rfl⟩ | ⟨ha, -, rfl⟩ := execPush_eq_next h
    · exact .inl (.push ha hsp)
    · exact .inr (takesFault_of_find (by simp [Instr.regOperands, ha]))
    · exact .inr (takesFault_of_mayRaise (.inl ⟨a, rfl, ha, rfl⟩))
  | pop a =>
    obtain ⟨ha, hsp, rfl⟩ | ⟨ha, rfl⟩ | ⟨ha, -, rfl⟩ := execPop_eq_next h
    · exact .inl (.pop ha hsp)
    · exact .inr (takesFault_of_find (by simp [Instr.regOperands, ha]))
    · exact .inr (takesFault_of_mayRaise (.inr ⟨a, rfl, ha, rfl⟩))

/-- A step of a running machine takes a fault, that of the fetch and of an unknown opcode among them, or the
instruction at PC completes. -/
theorem step_completes_or_faults {s t : State} (h : step s = .next t) :
    (∃ r, t = s.takeFault r) ∨ ∃ i, executing s = some i ∧ Completes i s t := by
  obtain ⟨-, ⟨i, -, hi, hexec⟩ | ⟨-, -, ht⟩ | ⟨-, -, -, ht⟩⟩ := step_eq_next h
  · obtain hc | ⟨r, -, ht⟩ := exec_eq_next hexec
    · exact .inr ⟨i, hi, hc⟩
    · exact .inl ⟨r, ht⟩
  · exact .inl ⟨_, ht⟩
  · exact .inl ⟨_, ht⟩

/-! ### The program counter (R26) -/

@[simp] theorem State.equalSet_iff (s : State) : s.equalSet = true ↔ s.flE = 1#1 := decide_eq_true_iff

@[simp] theorem State.equalClear_iff (s : State) : s.equalClear = true ↔ s.flE = 0#1 := decide_eq_true_iff

/-- HLT alone changes the status when it completes. -/
theorem Completes.status_eq {i : Instr} {s t : State} (h : Completes i s t) (hi : i ≠ .hlt) : t.status = s.status := by
  cases h with
  | hlt => exact absurd rfl hi
  | jeq ha => split <;> rfl
  | jne ha => split <;> rfl
  | _ => rfl

/-- Settles O30: a fault and HLT keep PC and end the run; every other completed instruction leaves the machine
running, with PC as its constructor of `Completes` says. -/
theorem pcAdvancesOrIsReplaced : Obligations.PcAdvancesOrIsReplaced := by
  intro s t h
  have hs := running_of_step_next h
  obtain ⟨r, rfl⟩ | ⟨i, hi, hc⟩ := step_completes_or_faults h
  · exact ⟨fun _ => rfl, fun hrun => by simp at hrun⟩
  · constructor
    · intro hend
      have : i = .hlt := by
        by_contra hne
        exact hend ((hc.status_eq hne).trans hs)
      subst this
      cases hc
      rfl
    · intro hrun
      refine ⟨i, hi, ?_⟩
      cases hc with
      | jmp ha => exact ⟨_, rfl, rfl⟩
      | jeq ha => exact ⟨⟨_, ha⟩, rfl, by simp only [State.equalSet_iff, apply_ite State.pc]; rfl⟩
      | jne ha => exact ⟨⟨_, ha⟩, rfl, by simp only [State.equalClear_iff, apply_ite State.pc]; rfl⟩
      | hlt => cases hrun
      | _ => rfl

/-! ### Who writes the equal flag (R29) -/

@[simp] theorem equalFlag_self (e : Bit) (v : Byte) : equalFlag e v v = 1#1 := if_pos rfl

theorem equalFlag_of_ne {va vb : Byte} (h : va ≠ vb) (e : Bit) : equalFlag e va vb = e := if_neg h

/-- A register operand written as its index passes the check. -/
@[simp] theorem formR_ofNat (ra : RegIdx) (s : State) (k : RegIdx → Result) :
    formR (BitVec.ofNat 8 ra.val) s k = k ra := by
  have hra : (BitVec.ofNat 8 ra.val).toNat = ra.val := by simp; omega
  rw [formR_of_lt (by omega)]
  simp only [hra]

/-- A CMP of two existing registers completes. -/
theorem exec_cmp_ofNat (ra rb : RegIdx) (s : State) :
    exec (.cmp (BitVec.ofNat 8 ra.val) (BitVec.ofNat 8 rb.val)) s =
      .next ((s.setFlE (equalFlag s.flE (s.getReg ra) (s.getReg rb))).advance 3) := by
  simp [exec, execCmp, formRR_eq]

/-- A completed instruction leaves the flag, unless it is a CMP of two equal registers. -/
theorem Completes.flE_eq {i : Instr} {s t : State} (h : Completes i s t)
    (hi : ∀ ra rb : RegIdx, i = .cmp (BitVec.ofNat 8 ra.val) (BitVec.ofNat 8 rb.val) → s.getReg ra ≠ s.getReg rb) :
    t.flE = s.flE := by
  cases h with
  | cmp ha hb => exact equalFlag_of_ne (hi ⟨_, ha⟩ ⟨_, hb⟩ (by simp)) _
  | jeq ha => split <;> rfl
  | jne ha => split <;> rfl
  | _ => rfl

/-- A CMP that finds equality sets the flag. -/
theorem step_flE_of_cmpFindsEqual {s t : State} (h : step s = .next t) (hc : cmpFindsEqual s) : t.flE = 1#1 := by
  obtain ⟨ra, rb, hi, heq⟩ := hc
  obtain ⟨-, ⟨j, -, hj, hexec⟩ | ⟨hnone, -⟩ | ⟨hnone, -⟩⟩ := step_eq_next h
  · obtain rfl : j = _ := Option.some.inj (hj.symm.trans hi)
    rw [exec_cmp_ofNat] at hexec
    cases hexec
    simp [heq]
  · rw [hi] at hnone; cases hnone
  · rw [hi] at hnone; cases hnone

/-- Every other step leaves the flag. -/
theorem step_flE_of_not_cmpFindsEqual {s t : State} (h : step s = .next t) (hc : ¬ cmpFindsEqual s) :
    t.flE = s.flE := by
  obtain ⟨r, rfl⟩ | ⟨i, hi, hcompl⟩ := step_completes_or_faults h
  · rfl
  · refine hcompl.flE_eq fun ra rb hcmp heq => hc ⟨ra, rb, ?_, heq⟩
    rw [hi, hcmp]

/-! ### Who reads the equal flag (R29) -/

/-- The second outcome follows the first up to the flag: where the first answers a next state, the second answers one
that differs from it at most in the flag. -/
def AgreeButFlag (r r' : Result) : Prop := ∀ t, r = .next t → ∃ t', r' = .next t' ∧ { t' with flE := t.flE } = t

theorem AgreeButFlag.next {t t' : State} (h : { t' with flE := t.flE } = t) : AgreeButFlag (.next t) (.next t') := by
  rintro _ ⟨⟩
  exact ⟨t', rfl, h⟩

/-- A check that does not read the flag, whose continuations agree but for the flag. -/
theorem AgreeButFlag.check {α : Type} {s : State} {e : Bit} {k k' : α → Result} (c : Except Raise α)
    (hk : ∀ a, AgreeButFlag (k a) (k' a)) :
    AgreeButFlag (attempt s c k) (attempt { s with flE := e } c k') := by
  cases c with
  | ok a => exact hk a
  | error r => exact .next rfl

/-- No instruction but JEQ and JNE reads the flag: its checks and what it writes are the same for either value. CMP
keeps it or sets it, so the next states still differ at most there. -/
theorem exec_agreeButFlag {i : Instr} (hi : ∀ a, i ≠ .jeq a ∧ i ≠ .jne a) (s : State) (e : Bit) :
    AgreeButFlag (exec i s) (exec i { s with flE := e }) := by
  cases i with
  | jeq a => exact absurd rfl (hi a).1
  | jne a => exact absurd rfl (hi a).2
  | hlt => exact .next rfl
  | ldi a imm => exact .check _ fun _ => .next rfl
  | prn a => exact .check _ fun _ => .next rfl
  | pra a => exact .check _ fun _ => .next rfl
  | jmp a => exact .check _ fun _ => .next rfl
  | mul a b => exact .check _ fun _ => .check _ fun _ => .next rfl
  | cmp a b => exact .check _ fun _ => .check _ fun _ => .next rfl
  | pop a => exact .check _ fun _ => .check _ fun _ => .check _ fun _ => .next rfl
  | push a =>
    refine .check _ fun ra => .check _ fun _ => ?_
    rw [memWrite_pushAddr, memWrite_pushAddr]
    exact .next rfl

/-- Settles O34: the flag after a step by whether a CMP finds equality, and `exec_agreeButFlag`. -/
theorem flagIsWrittenByCmpAndReadByConditionalJumps :
    Obligations.FlagIsWrittenByCmpAndReadByConditionalJumps :=
  ⟨fun _ _ h => ⟨step_flE_of_cmpFindsEqual h, step_flE_of_not_cmpFindsEqual h⟩,
    fun _ s t e hi h => exec_agreeButFlag hi s e t h⟩

end Sys2Proof.Machine
end

section
/-! PROOFS. The memory family (spec/20_memory.md): the address decoder outside the address space, and a read through it
after a write (R40, R42). -/

namespace Sys2Proof.Machine

theorem memWrite_of_ge {addr : Nat} (h : 256 ≤ addr) (v : Byte) (s : State) :
    memWrite addr v s = .error { kind := .addressOutOfRange, value := addr } := by
  rw [memWrite, if_pos (by unfold Config.memSize; omega)]

/-- A read through the address decoder sees the cell written, wherever it looks. -/
theorem memRead_write {s : State} (hm : s.mem.wf = true) {addr : Nat} (h : addr < 256) (v : Byte) (b : Nat) :
    memRead b { s with mem := s.mem.write addr v } = if addr = b then .ok v else memRead b s := by
  obtain hb | hb := Nat.lt_or_ge b 256
  · rw [memRead_of_lt hb, memRead_of_lt hb, Memory.read_write hm, apply_ite Except.ok]
  · rw [memRead_of_ge hb, memRead_of_ge hb, if_neg (by omega)]

/-- Settles O40: the decoder's answer in each of its two ranges, and `memRead_write` for what is read after a write. -/
theorem addressDecoderReadsAndWritesOneCell : Obligations.AddressDecoderReadsAndWritesOneCell := by
  intro addr v s hm
  constructor
  · intro h
    refine ⟨memRead_of_lt h s, _, memWrite_of_lt h v s, ?same, fun b hb => ?other, rfl⟩
    case same => rw [memRead_write hm h, if_pos rfl]
    case other => rw [memRead_write hm h, if_neg hb.symm]
  · intro h
    exact ⟨memRead_of_ge h s, memWrite_of_ge h v s⟩

end Sys2Proof.Machine
end

section
/-! PROOFS. The encoding family (spec/30_encoding.md): what the bits of an opcode say of its instruction (R66). -/

namespace Sys2Proof

/-- Bits 7:6 count the operand bytes. -/
theorem opcode_div_64 (i : Instr) : i.opcode.toNat / 64 = i.length - 1 := by
  cases i <;> simp [Instr.opcode, Instr.length, Instr.format, Format.length]

/-- Bit 5 marks the two instructions that go through the ALU. -/
theorem opcode_bit5_iff (i : Instr) :
    i.opcode.getLsbD 5 = true ↔ ∃ a b, i = .mul a b ∨ i = .cmp a b := by
  cases i <;> simp [Instr.opcode]

/-- Bit 4 marks the three instructions that can replace PC. -/
theorem opcode_bit4_iff (i : Instr) :
    i.opcode.getLsbD 4 = true ↔ ∃ a, i = .jmp a ∨ i = .jeq a ∨ i = .jne a := by
  cases i <;> simp [Instr.opcode]

namespace Machine

/-- Settles O20: R66 field by field, each read off the opcode of every constructor. -/
theorem opcodeBitPattern : Obligations.OpcodeBitPattern :=
  fun i => ⟨opcode_div_64 i, opcode_bit5_iff i, opcode_bit4_iff i⟩

end Machine

end Sys2Proof
end

section
/-! PROOFS. The loop family (spec/40_loop_and_dispatch.md): a step of a running machine by where its PC stands (R82), the
halt test (R84) and the unknown opcode (R86). -/

namespace Sys2Proof.Machine

/-- The machine's fault entry leaves the state that the obligations describe. -/
theorem State.takeFault_eq_withFault (s : State) (kind : FaultKind) (value : Int) :
    s.takeFault { kind := kind, value := value } = s.withFault kind value := rfl

/-! ### The step, by where PC stands (R82) -/

/-- Where the window fits, the step is the window's instruction or its unknown-opcode fault. -/
theorem step_of_le {s : State} (hs : s.status = .running) (hpc : s.pc ≤ 253) :
    step s = attempt s
      (decoded { op := s.mem.read s.pc, a := s.mem.read (s.pc + 1), b := s.mem.read (s.pc + 2) })
      fun i => exec i s := by
  rw [step_running hs, fetch_of_le hpc, attempt_ok]

/-- Where it does not, the step faults at the fetch, whatever the opcode is (D5). -/
theorem step_of_ge {s : State} (hs : s.status = .running) (hpc : 254 ≤ s.pc) :
    step s = .next (s.withFault .addressOutOfRange (max 256 s.pc : Nat)) := by
  rw [step_running hs, fetch_of_ge hpc, attempt_error, State.takeFault_eq_withFault]

/-! ### HLT (R84) -/

theorem decoded_hltOpcode (a b : Byte) : decoded { op := 0x01#8, a := a, b := b } = .ok .hlt := rfl

theorem exec_hlt (s : State) : exec .hlt s = .next { s with status := .halted } := rfl

/-- A running machine whose opcode byte is HLT's halts, whatever the operand bytes are. -/
theorem step_of_hltOpcode {s : State} (hs : s.status = .running) (hpc : s.pc ≤ 253)
    (hop : s.mem.read s.pc = 0x01#8) : step s = .next { s with status := .halted } := by
  rw [step_of_le hs hpc, hop, decoded_hltOpcode, attempt_ok, exec_hlt]

/-- Settles O11: the halt test where the window fits, and `step_of_ge` at 254 and 255, where 256 is the first address
out of range. -/
theorem hltHalts : Obligations.HltHalts := by
  refine ⟨rfl, fun s => ⟨exec_hlt s, step_of_hltOpcode, fun hs hpc => ?_⟩⟩
  rw [step_of_ge hs (by omega), Nat.max_eq_left (by omega)]
  rfl

/-! ### An unknown opcode (R86) -/

/-- The opcode map has a row for exactly the opcodes R67 lists. -/
theorem rowOf_eq_none_iff_notMem_knownOpcodes {op : Byte} : rowOf op = none ↔ op ∉ knownOpcodes := by
  simp only [rowOf_eq_none, knownOpcodes, List.mem_cons, List.not_mem_nil, or_false, not_or]
  tauto

theorem decoded_of_notMem_knownOpcodes {w : Window} (h : w.op ∉ knownOpcodes) :
    decoded w = .error { kind := .unknownOpcode, value := w.op.toNat } := by
  obtain ⟨r, hr, -⟩ | ⟨-, hd⟩ := decoded_cases w
  · rw [rowOf_eq_none_iff_notMem_knownOpcodes.2 h] at hr
    cases hr
  · exact hd

/-- A running machine whose opcode byte is none of the eleven takes the unknown-opcode fault. -/
theorem step_of_notMem_knownOpcodes {s : State} (hs : s.status = .running) (hpc : s.pc ≤ 253)
    (hop : s.mem.read s.pc ∉ knownOpcodes) :
    step s = .next (s.withFault .unknownOpcode (s.mem.read s.pc).toNat) := by
  rw [step_of_le hs hpc, decoded_of_notMem_knownOpcodes hop, attempt_error, State.takeFault_eq_withFault]

/-- Settles O25: the step faults (`step_of_notMem_knownOpcodes`), and the host's mapping reads the opcode back from the
fault record. -/
theorem unknownOpcodeFaults : Obligations.UnknownOpcodeFaults :=
  fun _ hs hpc hop => ⟨_, step_of_notMem_knownOpcodes hs hpc hop, rfl, rfl, rfl⟩

end Sys2Proof.Machine
end

section
/-! PROOFS. The ALU family (spec/41_alu.md): MUL (R106) and CMP (R108) over every operand byte, and the equal flag along
a run (R109). -/

namespace Sys2Proof.Machine

/-! ### Instructions of two register operands: where both are in range, and the fault of the first that is not (R90) -/

theorem formRR_of_lt {a b : Byte} (ha : a.toNat < 8) (hb : b.toNat < 8) (s : State) (k : RegIdx → RegIdx → Result) :
    formRR a b s k = k ⟨a.toNat, ha⟩ ⟨b.toNat, hb⟩ := by
  rw [formRR_eq, formR_of_lt ha, formR_of_lt hb]

theorem formRR_of_ge_left {a : Byte} (ha : 8 ≤ a.toNat) (b : Byte) (s : State) (k : RegIdx → RegIdx → Result) :
    formRR a b s k = .next (s.withFault .registerIndexOutOfRange a.toNat) := by
  rw [formRR_eq, formR_of_ge ha, State.takeFault_eq_withFault]

theorem formRR_of_ge_right {a b : Byte} (ha : a.toNat < 8) (hb : 8 ≤ b.toNat) (s : State)
    (k : RegIdx → RegIdx → Result) :
    formRR a b s k = .next (s.withFault .registerIndexOutOfRange b.toNat) := by
  rw [formRR_eq, formR_of_lt ha, formR_of_ge hb, State.takeFault_eq_withFault]

/-! ### MUL (R106) -/

theorem exec_mul (a b : Byte) (s : State) :
    exec (.mul a b) s = formRR a b s fun ra rb =>
      .next ((s.setReg ra (wrapByte ((s.getReg ra).toNat * (s.getReg rb).toNat))).advance 3) := rfl

/-- The ALU's result is the product reduced modulo 256 (R105). -/
theorem wrapByte_eq_ofNat_mod (n : Nat) : wrapByte n = BitVec.ofNat 8 (n % 256) := by
  apply BitVec.eq_of_toNat_eq
  simp

/-- Settles O4: the operand form decides between the product and the two faults. -/
theorem mulWritesProductModulo256 : Obligations.MulWritesProductModulo256 := by
  intro a b s
  simp only [exec_mul]
  refine ⟨rfl, fun ha hb => ?product, fun ha => formRR_of_ge_left ha .., fun ha hb => formRR_of_ge_right ha hb ..⟩
  case product =>
    rw [formRR_of_lt ha hb, wrapByte_eq_ofNat_mod]
    rfl

/-! ### CMP (R108) -/

theorem exec_cmp (a b : Byte) (s : State) :
    exec (.cmp a b) s = formRR a b s fun ra rb =>
      .next ((s.setFlE (equalFlag s.flE (s.getReg ra) (s.getReg rb))).advance 3) := rfl

/-- Settles O5: the operand form decides between the comparison and the two faults, and `equalFlag` between setting
the flag and leaving it. -/
theorem cmpSetsFlagOnEqualityOnly : Obligations.CmpSetsFlagOnEqualityOnly := by
  intro a b s
  simp only [exec_cmp]
  refine ⟨rfl, fun ha hb => ⟨fun heq => ?equal, fun hne => ?unequal⟩, fun ha => formRR_of_ge_left ha ..,
    fun ha hb => formRR_of_ge_right ha hb ..⟩
  case equal =>
    have hreg : s.getReg ⟨a.toNat, ha⟩ = s.getReg ⟨b.toNat, hb⟩ := heq
    rw [formRR_of_lt ha hb, hreg, equalFlag_self]
    rfl
  case unequal =>
    have hreg : s.getReg ⟨a.toNat, ha⟩ ≠ s.getReg ⟨b.toNat, hb⟩ := hne
    rw [formRR_of_lt ha hb, equalFlag_of_ne hreg]
    rfl

/-! ### The equal flag along a run (R109) -/

/-- One of the first `n` steps of the run from `s` is a CMP that finds equality. -/
def CmpFoundEqualWithin (n : Nat) (s : State) : Prop :=
  ∃ (k : Nat) (u : State), k < n ∧ Sys2Proof.core.run k s = .next u ∧ cmpFindsEqual u

theorem not_cmpFoundEqualWithin_zero (s : State) : ¬ CmpFoundEqualWithin 0 s := by
  rintro ⟨k, u, hk, -⟩
  exact Nat.not_lt_zero k hk

/-- One more step of a run finds equality exactly when the state it starts from does. -/
theorem cmpFoundEqualWithin_succ {n : Nat} {s u : State} (hu : Sys2Proof.core.run n s = .next u) :
    CmpFoundEqualWithin (n + 1) s ↔ CmpFoundEqualWithin n s ∨ cmpFindsEqual u := by
  constructor
  · rintro ⟨k, v, hk, hv, hcmp⟩
    obtain hlt | rfl := Nat.lt_succ_iff_lt_or_eq.1 hk
    · exact .inl ⟨k, v, hlt, hv, hcmp⟩
    · obtain rfl : v = u := Host.Outcome.next.inj (hv.symm.trans hu)
      exact .inr hcmp
  · rintro (⟨k, v, hk, hv, hcmp⟩ | hcmp)
    · exact ⟨k, v, Nat.lt_succ_of_lt hk, hv, hcmp⟩
    · exact ⟨n, u, Nat.lt_succ_self n, hu, hcmp⟩

/-- The flag after one step: set before it, or set by it. -/
theorem step_flE_eq_one_iff {s t : State} (h : step s = .next t) :
    t.flE = 1#1 ↔ s.flE = 1#1 ∨ cmpFindsEqual s := by
  by_cases hcmp : cmpFindsEqual s
  · simp [step_flE_of_cmpFindsEqual h hcmp, hcmp]
  · simp [step_flE_of_not_cmpFindsEqual h hcmp, hcmp]

/-- The flag after a run: set before it, or set by one of its steps. -/
theorem run_flE_eq_one_iff {n : Nat} {s t : State} (h : Sys2Proof.core.run n s = .next t) :
    t.flE = 1#1 ↔ s.flE = 1#1 ∨ CmpFoundEqualWithin n s := by
  induction n generalizing t with
  | zero =>
    obtain rfl : s = t := Host.Outcome.next.inj h
    simp [not_cmpFoundEqualWithin_zero]
  | succ n ih =>
    obtain ⟨u, hu, hstep⟩ := run_succ_eq_next h
    rw [step_flE_eq_one_iff hstep, ih hu, cmpFoundEqualWithin_succ hu, or_assoc]

/-- A run starts with the flag clear: reset clears it, and loading an image leaves it. -/
theorem flE_of_boot {p : Config.Params} {image : List Byte} {s : State} (h : boot p image = .next s) :
    s.flE = 0#1 := by
  unfold boot load at h
  split at h <;> cases h
  rfl

/-- Settles O35: `run_flE_eq_one_iff`, whose first alternative `flE_of_boot` excludes for a run from boot. -/
theorem flagTellsWhetherAnyCmpFoundEquality : Obligations.FlagTellsWhetherAnyCmpFoundEquality := by
  refine ⟨fun n s t hrun => run_flE_eq_one_iff hrun, fun p image n s t hboot hrun => ?_⟩
  have hclear : s.flE ≠ 1#1 := by simp [flE_of_boot hboot]
  exact (run_flE_eq_one_iff hrun).trans (or_iff_right hclear)

end Sys2Proof.Machine
end

section
/-! PROOFS. The load and output family (spec/42_load_and_output.md): LDI (R115), PRN (R117) and PRA (R119) over every
operand byte. -/

namespace Sys2Proof.Machine

/-! ### Instructions of one register operand: the fault where it is out of range (R90) -/

theorem formR_of_ge_eq_withFault {a : Byte} (ha : 8 ≤ a.toNat) (s : State) (k : RegIdx → Result) :
    formR a s k = .next (s.withFault .registerIndexOutOfRange a.toNat) := by
  rw [formR_of_ge ha, State.takeFault_eq_withFault]

/-! ### LDI (R115) -/

theorem exec_ldi (a imm : Byte) (s : State) :
    exec (.ldi a imm) s = formR a s fun ra => .next ((s.setReg ra imm).advance 3) := rfl

/-- Settles O1: the operand form decides between the load and the fault of A; the immediate is not checked. -/
theorem ldiLoadsImmediate : Obligations.LdiLoadsImmediate := by
  intro a imm s
  simp only [exec_ldi]
  refine ⟨rfl, fun ha => ?load, fun ha => formR_of_ge_eq_withFault ha ..⟩
  case load =>
    rw [formR_of_lt ha]
    rfl

/-! ### PRN (R117) and PRA (R119): one register, output as one event -/

theorem exec_prn (a : Byte) (s : State) :
    exec (.prn a) s = formR a s fun ra => .next ((s.emit (.outDec (s.getReg ra))).advance 2) := rfl

theorem exec_pra (a : Byte) (s : State) :
    exec (.pra a) s = formR a s fun ra => .next ((s.emit (.outChar (s.getReg ra))).advance 2) := rfl

/-- What an output instruction does to the whole state when its register exists, whichever event it makes of the byte. -/
theorem formR_emit_of_lt {a : Byte} (ha : a.toNat < 8) (s : State) (event : Byte → OutEvent) :
    (formR a s fun ra => .next ((s.emit (event (s.getReg ra))).advance 2)) =
      .next { s with out := s.out ++ [event (s.x[a.toNat]'ha)], pc := s.pc + 2 } := by
  rw [formR_of_lt ha]
  rfl

/-- Settles O2: the operand form decides between the decimal event and the fault of A. -/
theorem prnEmitsDecimalEvent : Obligations.PrnEmitsDecimalEvent := by
  intro a s
  simp only [exec_prn]
  exact ⟨rfl, fun ha => formR_emit_of_lt ha s .outDec, fun ha => formR_of_ge_eq_withFault ha ..⟩

/-- Settles O3: the operand form decides between the character event and the fault of A; the byte is not checked. -/
theorem praEmitsCharacterEvent : Obligations.PraEmitsCharacterEvent := by
  intro a s
  simp only [exec_pra]
  exact ⟨rfl, fun ha => formR_emit_of_lt ha s .outChar, fun ha => formR_of_ge_eq_withFault ha ..⟩

end Sys2Proof.Machine
end

section
/-! PROOFS. The control transfer family (spec/44_control_transfer.md): JMP (R135), and JEQ (R137) and JNE (R139) as one
conditional jump whose register is checked on both paths (R90). -/

namespace Sys2Proof.Machine

/-! ### JMP (R135) -/

theorem exec_jmp (a : Byte) (s : State) :
    exec (.jmp a) s = formR a s fun ra => .next (s.jumpTo (s.getReg ra)) := rfl

/-- A jump through an existing register replaces PC and nothing else. -/
theorem State.jumpTo_getReg (s : State) {a : Byte} (ha : a.toNat < 8) :
    s.jumpTo (s.getReg ⟨a.toNat, ha⟩) = { s with pc := (s.x[a.toNat]'ha).toNat } := rfl

/-- Settles O8: the operand form decides between the jump and the fault of A. -/
theorem jmpReplacesPc : Obligations.JmpReplacesPc := by
  intro a s
  simp only [exec_jmp]
  refine ⟨rfl, fun ha => ?jump, fun ha => formR_of_ge_eq_withFault ha ..⟩
  case jump => rw [formR_of_lt ha, State.jumpTo_getReg]

/-! ### The conditional jump: both paths, and the fault on either (R90) -/

theorem jumpIf_true_of_lt {a : Byte} (ha : a.toNat < 8) (s : State) :
    jumpIf true a s = .next { s with pc := (s.x[a.toNat]'ha).toNat } := by
  rw [jumpIf, formR_of_lt ha, if_pos rfl, State.jumpTo_getReg]

theorem jumpIf_false_of_lt {a : Byte} (ha : a.toNat < 8) (s : State) :
    jumpIf false a s = .next { s with pc := s.pc + 2 } := by
  rw [jumpIf, formR_of_lt ha, if_neg Bool.false_ne_true]
  rfl

theorem jumpIf_of_ge {a : Byte} (ha : 8 ≤ a.toNat) (taken : Bool) (s : State) :
    jumpIf taken a s = .next (s.withFault .registerIndexOutOfRange a.toNat) :=
  formR_of_ge_eq_withFault ha ..

/-! ### JEQ (R137) -/

theorem exec_jeq (a : Byte) (s : State) : exec (.jeq a) s = jumpIf s.equalSet a s := rfl

theorem State.equalSet_eq_false {s : State} (h : s.flE = 0#1) : s.equalSet = false := by
  rw [Bool.eq_false_iff, ne_eq, State.equalSet_iff, h]
  decide

/-- Settles O9: the flag picks the path of `jumpIf`; the fault of A does not depend on it. -/
theorem jeqJumpsWhenFlagSet : Obligations.JeqJumpsWhenFlagSet := by
  intro a s
  simp only [exec_jeq]
  refine ⟨rfl, fun ha => ⟨fun hset => ?taken, fun hclear => ?untaken⟩, fun ha => jumpIf_of_ge ha ..⟩
  case taken => rw [s.equalSet_iff.2 hset, jumpIf_true_of_lt ha]
  case untaken => rw [State.equalSet_eq_false hclear, jumpIf_false_of_lt ha]

/-! ### JNE (R139) -/

theorem exec_jne (a : Byte) (s : State) : exec (.jne a) s = jumpIf s.equalClear a s := rfl

theorem State.equalClear_eq_false {s : State} (h : s.flE = 1#1) : s.equalClear = false := by
  rw [Bool.eq_false_iff, ne_eq, State.equalClear_iff, h]
  decide

/-- Settles O10: the flag picks the path of `jumpIf`; the fault of A does not depend on it. -/
theorem jneJumpsWhenFlagClear : Obligations.JneJumpsWhenFlagClear := by
  intro a s
  simp only [exec_jne]
  refine ⟨rfl, fun ha => ⟨fun hclear => ?taken, fun hset => ?untaken⟩, fun ha => jumpIf_of_ge ha ..⟩
  case taken => rw [s.equalClear_iff.2 hclear, jumpIf_true_of_lt ha]
  case untaken => rw [State.equalClear_eq_false hset, jumpIf_false_of_lt ha]

end Sys2Proof.Machine
end

section
/-! PROOFS. The exceptions family (spec/60_exceptions.md): the faults each instruction can raise (R148), and how a run
ends (R153, R89). -/

namespace Sys2Proof.Machine

/-! ### The faults of an instruction (R148): none outside its row -/

/-- An instruction that completes takes no fault. -/
theorem Completes.status_ne_faulted {i : Instr} {s t : State} (h : Completes i s t) (hs : s.status = .running)
    (kind : FaultKind) (info : FaultInfo) : t.status ≠ .faulted kind info := by
  by_cases hi : i = .hlt
  · subst hi
    cases h
    simp
  · simp [h.status_eq hi, hs]

/-- A fault in which an instruction ends is one of its row. -/
theorem mayRaise_of_exec {i : Instr} {s t : State} {kind : FaultKind} {info : FaultInfo} (hs : s.status = .running)
    (h : exec i s = .next t) (ht : t.status = .faulted kind info) : mayRaise i kind info.value := by
  obtain hc | ⟨r, hr, rfl⟩ := exec_eq_next h
  · exact absurd ht (hc.status_ne_faulted hs kind info)
  · cases ht
    exact hr

/-! ### The faults of an instruction (R148): each of its row in some state -/

/-- An instruction completes only if the registers it names exist. -/
theorem Completes.toNat_lt_of_mem {i : Instr} {s t : State} (h : Completes i s t) {b : Byte}
    (hb : b ∈ i.regOperands) : b.toNat < 8 := by
  cases h with
  | mul ha hb' | cmp ha hb' =>
    obtain rfl | rfl := List.mem_pair.1 hb
    · exact ha
    · exact hb'
  | hlt => cases hb
  | _ ha =>
    obtain rfl := List.mem_singleton.1 hb
    exact ha

/-- A register operand that is out of range leaves an instruction no other fault: PUSH and POP check SP only once their
operand is in range. -/
theorem eq_of_mayRaise_of_find {i : Instr} {b : Byte} {kind : FaultKind} {value : Int}
    (hfind : i.regOperands.find? (fun b => decide (8 ≤ b.toNat)) = some b) (h : mayRaise i kind value) :
    kind = .registerIndexOutOfRange ∧ value = b.toNat := by
  cases kind with
  | registerIndexOutOfRange =>
    obtain ⟨c, hc, rfl⟩ := h
    obtain rfl : b = c := Option.some.inj (hfind.symm.trans hc)
    exact ⟨rfl, rfl⟩
  | stackPointerOutOfRange =>
    obtain ⟨a, rfl, ha, -⟩ | ⟨a, rfl, ha, -⟩ := h <;> simp [Instr.regOperands, Nat.not_le.2 ha] at hfind
  | unknownOpcode | addressOutOfRange | unsupportedAluOp => exact h.elim

/-- The first register operand that is out of range is the one that faults, in every state (R90). -/
theorem exec_of_find {i : Instr} {b : Byte}
    (hfind : i.regOperands.find? (fun b => decide (8 ≤ b.toNat)) = some b) (s : State) :
    exec i s = .next (s.withFault .registerIndexOutOfRange b.toNat) := by
  obtain ⟨t, ht⟩ := exec_answers_next i s
  obtain hc | ⟨⟨kind, value⟩, hr, rfl⟩ := exec_eq_next ht
  · have hlt : b.toNat < 8 := hc.toNat_lt_of_mem (List.mem_of_find?_eq_some hfind)
    have hge : 8 ≤ b.toNat := by simpa using List.find?_some hfind
    omega
  · obtain ⟨rfl, rfl⟩ := eq_of_mayRaise_of_find hfind hr
    exact ht

/-- PUSH has no room below a stack pointer of 0. -/
theorem exec_push_of_sp_zero {a : Byte} (ha : a.toNat < 8) {s : State} (hsp : s.sp = 0#8) :
    exec (.push a) s = .next (s.withFault .stackPointerOutOfRange (-1)) := by
  have hzero : s.sp.toNat = 0 := by simp [hsp]
  rw [exec, execPush_of_lt ha, if_pos hzero, State.takeFault_eq_withFault]

/-- A POP that pops 255 with a stack pointer of 255 faults whichever register it names, SP among them. -/
theorem exec_pop_of_sp_255 {a : Byte} (ha : a.toNat < 8) {s : State} (hsp : s.sp = 255#8)
    (hmem : s.mem.read 255 = 255#8) : exec (.pop a) s = .next (s.withFault .stackPointerOutOfRange 256) := by
  have hnew : popNewSp ⟨a.toNat, ha⟩ (s.mem.read s.sp.toNat) s = 256 := by simp [popNewSp, hsp, hmem]
  rw [exec, execPop_of_lt ha, if_pos hnew, State.takeFault_eq_withFault]

/-- A running state with the given stack pointer whose last cell holds 255. -/
def stateAtSp (sp : Byte) : State :=
  { State.resetWith { Config.reference with spInit := sp } with mem := [(255, 255#8)] }

theorem stateAtSp_status (sp : Byte) : (stateAtSp sp).status = .running := rfl

theorem stateAtSp_sp (sp : Byte) : (stateAtSp sp).sp = sp := rfl

theorem stateAtSp_read_last (sp : Byte) : (stateAtSp sp).mem.read 255 = 255#8 := rfl

/-- Every fault of an instruction's row is taken in a running state. -/
theorem exists_exec_eq_withFault {i : Instr} {kind : FaultKind} {value : Int} (h : mayRaise i kind value) :
    ∃ s : State, s.status = .running ∧ exec i s = .next (s.withFault kind value) := by
  cases kind with
  | registerIndexOutOfRange =>
    obtain ⟨b, hfind, rfl⟩ := h
    exact ⟨State.reset, rfl, exec_of_find hfind _⟩
  | stackPointerOutOfRange =>
    obtain ⟨a, rfl, ha, rfl⟩ | ⟨a, rfl, ha, rfl⟩ := h
    · exact ⟨stateAtSp 0#8, stateAtSp_status _, exec_push_of_sp_zero ha (stateAtSp_sp _)⟩
    · exact ⟨stateAtSp 255#8, stateAtSp_status _, exec_pop_of_sp_255 ha (stateAtSp_sp _) (stateAtSp_read_last _)⟩
  | unknownOpcode | addressOutOfRange | unsupportedAluOp => exact h.elim

/-- Settles O29: `mayRaise_of_exec` bounds the faults by the row, and `exists_exec_eq_withFault` reaches each of it. -/
theorem instructionsRaiseExactlyTheirFaults : Obligations.InstructionsRaiseExactlyTheirFaults := by
  intro i kind v
  constructor
  · intro h
    obtain ⟨s, hs, hexec⟩ := exists_exec_eq_withFault h
    exact ⟨s, _, hs, hexec, rfl⟩
  · rintro ⟨s, t, hs, hexec, ht⟩
    exact mayRaise_of_exec hs hexec ht

/-! ### How a run ends (R153, R89) -/

/-- A check ends the step in a next state if what follows it does. -/
theorem attempt_answers_next {α : Type} {c : Except Raise α} {k : α → Result} (hk : ∀ a, ∃ t, k a = .next t)
    (pre : State) : ∃ t, attempt pre c k = .next t := by
  cases c with
  | ok a => exact hk a
  | error r => exact ⟨_, rfl⟩

/-- A running machine always has a next state. -/
theorem step_answers_next {s : State} (hs : s.status = .running) : ∃ t, step s = .next t := by
  rw [step_running hs]
  exact attempt_answers_next (fun w => attempt_answers_next (fun i => exec_answers_next i s) s) s

/-- A machine that no longer runs has halted or faulted, and has no step. -/
theorem halted_or_faulted_of_ne_running {s : State} (hs : s.status ≠ .running) :
    (s.status = .halted ∨ ∃ kind info, s.status = .faulted kind info) ∧ ∃ f, step s = .fault f := by
  cases h : s.status with
  | running => exact absurd h hs
  | halted => exact ⟨.inl rfl, _, step_halted h⟩
  | faulted kind info => exact ⟨.inr ⟨kind, info, rfl⟩, _, step_faulted h⟩

/-- A run goes on from the state its first steps reach. -/
theorem run_add_of_run {n : Nat} {s t : State} (h : Sys2Proof.core.run n s = .next t) (m : Nat) :
    Sys2Proof.core.run (n + m) s = Sys2Proof.core.run m t := by
  induction n generalizing s with
  | zero =>
    obtain rfl : s = t := Host.Outcome.next.inj h
    rw [Nat.zero_add]
  | succ n ih =>
    cases hs : step s with
    | next u =>
      rw [run_succ_of_next hs] at h
      rw [Nat.add_right_comm, run_succ_of_next hs, ih h]
    | fault f => rw [run_succ_of_fault hs] at h; cases h
    | refused r => rw [run_succ_of_refused hs] at h; cases h

/-- Every run longer than one that reaches a state without a step answers that state's fault. -/
theorem run_of_gt {n m : Nat} {s t : State} {f : Fault} (h : Sys2Proof.core.run n s = .next t)
    (ht : step t = .fault f) (hm : n < m) : Sys2Proof.core.run m s = .fault f := by
  obtain ⟨k, rfl⟩ := Nat.exists_eq_add_of_lt hm
  rw [Nat.add_assoc, run_add_of_run h, run_succ_of_fault ht]

/-- The run of `n` steps from `s` reaches a state that is still running. -/
def RunningAfter (n : Nat) (s : State) : Prop := ∃ t, Sys2Proof.core.run n s = .next t ∧ t.status = .running

/-- The least number of steps after which a run no longer runs reaches a state, since the state before it runs. -/
theorem exists_run_eq_next_of_least {n : Nat} {s : State} (hs : s.status = .running) (hn : ¬ RunningAfter n s)
    (hleast : ∀ m < n, RunningAfter m s) : ∃ t, Sys2Proof.core.run n s = .next t ∧ t.status ≠ .running := by
  cases n with
  | zero => exact absurd ⟨s, rfl, hs⟩ hn
  | succ n =>
    obtain ⟨u, hu, hrun⟩ := hleast n n.lt_succ_self
    obtain ⟨t, ht⟩ := step_answers_next hrun
    have hrunt : Sys2Proof.core.run (n + 1) s = .next t := (run_succ_of_run hu).trans ht
    exact ⟨t, hrunt, fun h => hn ⟨t, hrunt, h⟩⟩

/-- Settles O38: a run that does not hang ends at the least number of steps after which it no longer runs. -/
theorem everyRunHangsOrEndsExactlyOnce : Obligations.EveryRunHangsOrEndsExactlyOnce := by
  classical
  intro s hs
  by_cases hhang : ∀ n, RunningAfter n s
  · exact .inl hhang
  · have hend : ∃ n, ¬ RunningAfter n s := not_forall.1 hhang
    have hleast : ∀ m < Nat.find hend, RunningAfter m s := fun m hm => not_not.1 (Nat.find_min hend hm)
    obtain ⟨t, ht, hstop⟩ := exists_run_eq_next_of_least hs (Nat.find_spec hend) hleast
    obtain ⟨hstatus, f, hf⟩ := halted_or_faulted_of_ne_running hstop
    exact .inr ⟨Nat.find hend, t, ht, hstatus, hleast, fun m hm => ⟨f, run_of_gt ht hf hm⟩⟩

end Sys2Proof.Machine
end

section
/-! PROOFS. The encoding family (spec/30_encoding.md), continued: the decoder against the encoder, on byte lists and on
instruction windows (R60-R65), the opcodes it rejects (R67), and words of the opcode table (R64). -/

namespace Sys2Proof

/-! ### Byte lists -/

/-- A byte selects only rows of the table that carry it as their opcode. -/
theorem mem_rows_of_rowOf {op : Byte} {r : OpRow} (h : rowOf op = some r) :
    r ∈ hltRow :: handlerTable ∧ r.opcode = op := by
  unfold rowOf at h
  split at h
  · cases h
    exact ⟨List.mem_cons_self, ‹op = _›.symm⟩
  · exact ⟨List.mem_cons_of_mem _ (List.mem_of_find?_eq_some h), by simpa using List.find?_some h⟩

/-- A row builds an instruction whose bytes are its opcode and as many operand bytes as its format has. -/
theorem encode_build {r : OpRow} (h : r ∈ hltRow :: handlerTable) (a b : Byte) :
    encode (r.build a b) = r.opcode :: [a, b].take (r.format.length - 1) := by
  simp only [handlerTable, List.mem_cons, List.not_mem_nil, or_false] at h
  rcases h with rfl | rfl | rfl | rfl | rfl | rfl | rfl | rfl | rfl | rfl | rfl <;> rfl

/-- What the decoder reads as operand bytes, cut to a format, and the bytes it leaves make up the list again. -/
theorem take_getD_append_drop (f : Format) {bs : List Byte} (h : f.length - 1 ≤ bs.length) :
    [bs.getD 0 0#8, bs.getD 1 0#8].take (f.length - 1) ++ bs.drop (f.length - 1) = bs := by
  cases f with
  | n => rfl
  | r => match bs, h with | _ :: _, _ => rfl
  | rr | ri => match bs, h with | _ :: _ :: _, _ => rfl

/-- Bytes that decode are the encoding of what they decode to, followed by the rest. -/
theorem eq_encode_append_of_decode {i : Instr} {bytes rest : List Byte} (h : decode bytes = .ok (i, rest)) :
    bytes = encode i ++ rest := by
  cases bytes with
  | nil => cases h
  | cons op bs =>
    cases hr : rowOf op with
    | none => simp [decode, hr] at h
    | some r =>
      obtain ⟨hmem, rfl⟩ := mem_rows_of_rowOf hr
      simp only [decode, hr] at h
      split at h
      · cases h
      · cases h
        rw [encode_build hmem, List.cons_append, take_getD_append_drop _ (by omega)]

theorem decode_encode_append (i : Instr) (rest : List Byte) : decode (encode i ++ rest) = .ok (i, rest) := by
  cases i <;> simp [encode, Instr.opcode, decode, rowOf, hltRow, handlerTable, Format.length]

namespace Machine

/-- Settles O16: what decodes is an encoding with its rest, and an encoding with any rest decodes. -/
theorem decodeIsInverseOfEncode : Obligations.DecodeIsInverseOfEncode := by
  intro i bytes rest
  constructor
  · exact eq_encode_append_of_decode
  · rintro rfl
    exact decode_encode_append i rest

end Machine

/-! ### Instruction windows -/

/-- A window decodes as the list of its three bytes does, which leaves a rest. -/
theorem decodeWindow_eq_ok_iff {op a b : Byte} {i : Instr} :
    decodeWindow op a b = .ok i ↔ ∃ rest, decode [op, a, b] = .ok (i, rest) := by
  cases hr : rowOf op with
  | none => simp [decodeWindow, decode, hr]
  | some r =>
    have hfits : ¬ 2 < r.format.length - 1 := by
      cases r.format <;> simp [Format.length]
    simp [decodeWindow, decode, hr, hfits]

/-- A window decodes to an instruction exactly when the instruction's bytes stand at its head. -/
theorem decodeWindow_eq_ok_iff_encode {op a b : Byte} {i : Instr} :
    decodeWindow op a b = .ok i ↔ encode i = [op, a, b].take i.length := by
  calc decodeWindow op a b = .ok i
    _ ↔ ∃ rest, [op, a, b] = encode i ++ rest := by
      rw [decodeWindow_eq_ok_iff, exists_congr fun rest => Machine.decodeIsInverseOfEncode i _ rest]
    _ ↔ encode i <+: [op, a, b] := exists_congr fun rest => eq_comm
    _ ↔ encode i = [op, a, b].take i.length := by rw [List.prefix_iff_eq_take, length_encode]

/-- A window is rejected, by the name of its opcode, exactly when the opcode has no row. -/
theorem decodeWindow_eq_error_iff {op a b : Byte} :
    decodeWindow op a b = .error (.unknownOpcode op) ↔ rowOf op = none := by
  unfold decodeWindow
  cases rowOf op <;> simp

namespace Machine

/-- Settles O17: a window is a list of three bytes, for which O16 speaks. -/
theorem windowDecodesIffEncodingStandsInIt : Obligations.WindowDecodesIffEncodingStandsInIt :=
  fun _ _ _ _ => decodeWindow_eq_ok_iff_encode

/-- Settles O18: each word evaluated. -/
theorem tableWordsDecode : Obligations.TableWordsDecode := by
  unfold Obligations.TableWordsDecode
  decide

/-- A list of bytes without repetition is selected, byte for byte, from all 256. -/
theorem length_filter_ofNat_mem {ops : List Byte} (h : ops.Nodup) :
    ((List.range 256).filter fun n => decide (BitVec.ofNat 8 n ∈ ops)).length = ops.length := by
  have hperm : ((List.range 256).filter fun n => decide (BitVec.ofNat 8 n ∈ ops)).Perm (ops.map BitVec.toNat) := by
    refine (List.perm_ext_iff_of_nodup (List.nodup_range.filter _)
      (h.map fun _ _ => BitVec.eq_of_toNat_eq)).2 fun n => ?_
    simp only [List.mem_filter, List.mem_range, decide_eq_true_eq, List.mem_map]
    constructor
    · rintro ⟨hn, hmem⟩
      exact ⟨_, hmem, (BitVec.toNat_ofNat ..).trans (Nat.mod_eq_of_lt hn)⟩
    · rintro ⟨op, hmem, rfl⟩
      exact ⟨op.isLt, by simpa using hmem⟩
  simpa using hperm.length_eq

/-- All other bytes are left. -/
theorem length_filter_ofNat_notMem {ops : List Byte} (h : ops.Nodup) :
    ((List.range 256).filter fun n => decide (BitVec.ofNat 8 n ∉ ops)).length = 256 - ops.length := by
  have hsum := List.length_eq_length_filter_add (l := List.range 256) fun n => decide (BitVec.ofNat 8 n ∈ ops)
  rw [List.length_range, length_filter_ofNat_mem h] at hsum
  simp only [decide_not]
  omega

/-- Settles O19: the rows are those of the listed opcodes, and the list has eleven of the 256 bytes. -/
theorem unknownOpcodesRejected : Obligations.UnknownOpcodesRejected := by
  constructor
  · intro op a b
    exact decodeWindow_eq_error_iff.trans rowOf_eq_none_iff_notMem_knownOpcodes
  · exact length_filter_ofNat_notMem (ops := knownOpcodes) (by decide)

end Machine

end Sys2Proof
end

section
/-! PROOFS. The loop family (spec/40_loop_and_dispatch.md), continued: the fetch (R82), the step that runs the
instruction standing at PC (R81, R91), and when there is no step (R89). -/

namespace Sys2Proof.Machine

/-! ### The fetch -/

/-- Settles O24: the fetch where the window fits, and `step_of_ge` on either side of the end of memory. -/
theorem fetchReadsThreeBytesOrFaults : Obligations.FetchReadsThreeBytesOrFaults := by
  intro s
  refine ⟨fetch_of_le, fun hs hpc => ?atEnd, fun hs hpc => ?beyond⟩
  case atEnd =>
    rw [step_of_ge hs (by omega), Nat.max_eq_left (by omega)]
    rfl
  case beyond => rw [step_of_ge hs (by omega), Nat.max_eq_right hpc]

/-! ### The instruction at PC -/

/-- A step executes the instruction of the window at PC. -/
theorem executing_of_le {s : State} (hs : s.status = .running) (hpc : s.pc ≤ 253) :
    executing s =
      (decoded { op := s.mem.read s.pc, a := s.mem.read (s.pc + 1), b := s.mem.read (s.pc + 2) }).toOption := by
  simp [executing, hs, fetch_of_le hpc]

/-- Only a running machine whose window fits executes an instruction. -/
theorem running_and_le_of_executing {s : State} {i : Instr} (h : executing s = some i) :
    s.status = .running ∧ s.pc ≤ 253 := by
  have hs : s.status = .running := by
    cases hst : s.status with
    | running => rfl
    | halted | faulted => simp [executing, hst] at h
  refine ⟨hs, Nat.le_of_not_lt fun hpc => ?_⟩
  simp [executing, hs, fetch_of_ge hpc] at h

/-- The step of a machine that executes an instruction is what the instruction does. -/
theorem step_of_executing {s : State} {i : Instr} (h : executing s = some i) : step s = exec i s := by
  obtain ⟨hs, hpc⟩ := running_and_le_of_executing h
  rw [step_of_le hs hpc]
  rw [executing_of_le hs hpc] at h
  cases hd : decoded { op := s.mem.read s.pc, a := s.mem.read (s.pc + 1), b := s.mem.read (s.pc + 2) } with
  | error r => rw [hd] at h; cases h
  | ok j =>
    rw [hd] at h
    cases h
    rfl

/-- Settles O21: the window decodes, so it is executed, and the step adds nothing. -/
theorem stepRunsDecodedInstruction : Obligations.StepRunsDecodedInstruction := by
  intro s i hs hpc hdecode
  have hi : executing s = some i := by rw [executing_of_le hs hpc, decoded_ok hdecode]; rfl
  exact ⟨step_of_executing hi, hi⟩

/-- Settles O22: the window's head is the instruction's encoding, so it decodes to the instruction (O17), and the step
runs it (O21). -/
theorem storedEncodingExecutes : Obligations.StoredEncodingExecutes := by
  intro s i hs hpc hstored
  have hlen := length_encode i
  have hhead : encode i = [s.mem.read s.pc, s.mem.read (s.pc + 1), s.mem.read (s.pc + 2)].take i.length := by
    apply List.ext_getElem
    · simpa [hlen] using length_le_three i
    · intro k hk _
      have hk3 : k < 3 := by have := length_le_three i; omega
      rw [← hstored k hk, List.getElem_take]
      interval_cases k <;> rfl
  exact (stepRunsDecodedInstruction s i hs hpc (decodeWindow_eq_ok_iff_encode.2 hhead)).1

/-! ### Placing a table word at PC (log entry 4) -/

/-- A table word decodes as the window of its three bytes does. -/
theorem decodeWindow_of_decodeTableWord {nbits w : Nat} {i : Instr} (h : decodeTableWord nbits w = some i) :
    decodeWindow (tableByte nbits w 0) (tableByte nbits w 1) (tableByte nbits w 2) = .ok i := by
  unfold decodeTableWord at h
  split at h <;> cases h
  assumption

/-- A word placed at a window that fits is written there whole. -/
theorem State.withFetchWord_eq {s : State} (hpc : s.pc ≤ 253) (nbits w : Nat) :
    s.withFetchWord nbits w =
      { s with mem := s.mem.writeBytes s.pc [tableByte nbits w 0, tableByte nbits w 1, tableByte nbits w 2] } := by
  rw [State.withFetchWord, placeTableWord, placeBytes, List.take_of_length_le]
  simp only [List.length_cons, List.length_nil, Config.memSize_eq]
  omega

/-- Settles O23: the three bytes placed are the window, which decodes as the word does, and O21 runs it. -/
theorem fetchWordRunsItsInstruction : Obligations.FetchWordRunsItsInstruction := by
  intro s nbits w i hm hs hpc hword
  rw [State.withFetchWord_eq hpc]
  have hfits : s.pc + [tableByte nbits w 0, tableByte nbits w 1, tableByte nbits w 2].length ≤ 256 := by
    simp only [List.length_cons, List.length_nil]
    omega
  refine ⟨And.left (stepRunsDecodedInstruction _ i hs hpc ?window), Memory.wf_writeBytes hm hfits,
    fun addr haddr => ?outside⟩
  case window => simpa [Memory.read_writeBytes hm hfits] using decodeWindow_of_decodeTableWord hword
  case outside =>
    have hread : ¬ (s.pc ≤ addr ∧ addr < s.pc + 3) := by omega
    obtain hlt | hge := Nat.lt_or_ge addr 256
    · simp [memRead_of_lt hlt, Memory.read_writeBytes hm hfits, hread]
    · rw [memRead_of_ge hge, memRead_of_ge hge]

/-! ### Where there is no step -/

/-- Settles O27: a running machine always has a next state, and the two terminal statuses have none. -/
theorem stepIsTotalOnRunningStates : Obligations.StepIsTotalOnRunningStates :=
  fun _ => ⟨step_answers_next, step_halted, fun _ _ => step_faulted⟩

end Sys2Proof.Machine
end

section
/-! PROOFS. Frames: when an instruction completes, and what each leaves unchanged of every state element, in every form
(spec/40_loop_and_dispatch.md R90, R91). -/

namespace Sys2Proof.Machine

/-! ### When an instruction completes -/

/-- `exec` answers the state that a completed instruction leaves. -/
theorem exec_of_completes {i : Instr} {s t : State} (h : Completes i s t) : exec i s = .next t := by
  cases h with
  | ldi ha => rw [exec_ldi, formR_of_lt ha]
  | prn ha => rw [exec_prn, formR_of_lt ha]
  | pra ha => rw [exec_pra, formR_of_lt ha]
  | mul ha hb => rw [exec_mul, formRR_of_lt ha hb]
  | cmp ha hb => rw [exec_cmp, formRR_of_lt ha hb]
  | jmp ha => rw [exec_jmp, formR_of_lt ha]
  | jeq ha => rw [exec_jeq, jumpIf, formR_of_lt ha]
  | jne ha => rw [exec_jne, jumpIf, formR_of_lt ha]
  | push ha hsp => rw [exec, execPush_of_lt ha, if_neg hsp]
  | pop ha hsp => rw [exec, execPop_of_lt ha, if_neg hsp]
  | hlt => rfl

/-- The registers a well-formed instruction names exist. -/
theorem toNat_lt_of_wf {i : Instr} (hwf : i.wf = true) {b : Byte} (hb : b ∈ i.regOperands) : b.toNat < 8 :=
  of_decide_eq_true (List.all_eq_true.1 hwf b hb)

/-- POP leaves its SP out of range exactly when the byte it increments is 255. -/
theorem popNewSp_eq_256_iff {a : Byte} (ha : a.toNat < 8) (v : Byte) (s : State) :
    popNewSp ⟨a.toNat, ha⟩ v s = 256 ↔ (if a.toNat = 7 then v else s.sp).toNat = 255 := by
  simp [popNewSp, Fin.ext_iff, Config.spIndex]

/-- An instruction none of whose checks fails completes. -/
theorem exists_completes_of_checks {i : Instr} {s : State} (hwf : i.wf = true)
    (hpush : ∀ a, i = .push a → s.sp.toNat ≠ 0)
    (hpop : ∀ a, i = .pop a → (if a.toNat = 7 then s.mem.read s.sp.toNat else s.sp).toNat ≠ 255) :
    ∃ t, Completes i s t := by
  have hreg {b : Byte} (hb : b ∈ i.regOperands) : b.toNat < 8 := toNat_lt_of_wf hwf hb
  cases i with
  | ldi a imm => exact ⟨_, .ldi (hreg List.mem_cons_self)⟩
  | prn a => exact ⟨_, .prn (hreg List.mem_cons_self)⟩
  | pra a => exact ⟨_, .pra (hreg List.mem_cons_self)⟩
  | mul a b => exact ⟨_, .mul (hreg List.mem_cons_self) (hreg (List.mem_pair.2 (.inr rfl)))⟩
  | cmp a b => exact ⟨_, .cmp (hreg List.mem_cons_self) (hreg (List.mem_pair.2 (.inr rfl)))⟩
  | jmp a => exact ⟨_, .jmp (hreg List.mem_cons_self)⟩
  | jeq a => exact ⟨_, .jeq (hreg List.mem_cons_self)⟩
  | jne a => exact ⟨_, .jne (hreg List.mem_cons_self)⟩
  | push a => exact ⟨_, .push (hreg List.mem_cons_self) (hpush a rfl)⟩
  | pop a => exact ⟨_, .pop (hreg List.mem_cons_self) (mt (popNewSp_eq_256_iff _ _ s).1 (hpop a rfl))⟩
  | hlt => exact ⟨_, .hlt⟩

/-! ### What an instruction leaves unchanged, one lemma for each state element -/

/-- The registers an instruction may write. -/
def WritesReg (r : RegIdx) : Instr → Prop
  | .ldi a _ | .mul a _ => r.val = a.toNat
  | .push _ => r = Config.spIndex
  | .pop a => r.val = a.toNat ∨ r = Config.spIndex
  | _ => False

theorem State.getReg_setReg_of_val_ne (s : State) {a : Byte} (ha : a.toNat < 8) {r : RegIdx} (hr : r.val ≠ a.toNat)
    (v : Byte) : (s.setReg ⟨a.toNat, ha⟩ v).getReg r = s.getReg r :=
  State.getReg_setReg_of_ne s (fun heq => hr (congrArg Fin.val heq.symm)) v

theorem exec_getReg_eq {i : Instr} {s t : State} (h : exec i s = .next t) {r : RegIdx} (hr : ¬ WritesReg r i) :
    t.getReg r = s.getReg r := by
  obtain hc | ⟨_, -, rfl⟩ := exec_eq_next h
  · cases hc with
    | ldi ha | mul ha hb => exact State.getReg_setReg_of_val_ne s ha hr _
    | push ha hsp => exact (State.getReg_decSp s r).trans (if_neg (Ne.symm hr))
    | pop ha hsp =>
      obtain ⟨hra, hrsp⟩ := not_or.1 hr
      rw [State.getReg_advance, State.getReg_incSp, if_neg (Ne.symm hrsp)]
      exact State.getReg_setReg_of_val_ne s ha hra _
    | jeq ha => split <;> rfl
    | jne ha => split <;> rfl
    | _ => rfl
  · rfl

theorem exec_mem_eq {i : Instr} {s t : State} (h : exec i s = .next t) (hi : ∀ a, i ≠ .push a) : t.mem = s.mem := by
  obtain hc | ⟨_, -, rfl⟩ := exec_eq_next h
  · cases hc with
    | push ha hsp => exact absurd rfl (hi _)
    | jeq ha => split <;> rfl
    | jne ha => split <;> rfl
    | _ => rfl
  · rfl

theorem exec_out_eq {i : Instr} {s t : State} (h : exec i s = .next t) (hi : ∀ a, i ≠ .prn a ∧ i ≠ .pra a) :
    t.out = s.out := by
  obtain hc | ⟨_, -, rfl⟩ := exec_eq_next h
  · cases hc with
    | prn ha => exact absurd rfl (hi _).1
    | pra ha => exact absurd rfl (hi _).2
    | jeq ha => split <;> rfl
    | jne ha => split <;> rfl
    | _ => rfl
  · rfl

theorem exec_flE_eq {i : Instr} {s t : State} (h : exec i s = .next t) (hi : ∀ a b, i ≠ .cmp a b) :
    t.flE = s.flE := by
  obtain hc | ⟨_, -, rfl⟩ := exec_eq_next h
  · exact hc.flE_eq fun _ _ hcmp => absurd hcmp (hi _ _)
  · rfl

/-- A well-formed instruction has no fault but the SP range of PUSH and POP. -/
theorem push_or_pop_of_mayRaise {i : Instr} (hwf : i.wf = true) {kind : FaultKind} {value : Int}
    (h : mayRaise i kind value) : ∃ a, i = .push a ∨ i = .pop a := by
  cases kind with
  | registerIndexOutOfRange =>
    obtain ⟨b, hfind, -⟩ := h
    have hlt := toNat_lt_of_wf hwf (List.mem_of_find?_eq_some hfind)
    have hge : 8 ≤ b.toNat := by simpa using List.find?_some hfind
    omega
  | stackPointerOutOfRange =>
    obtain ⟨a, rfl, -⟩ | ⟨a, rfl, -⟩ := h
    · exact ⟨a, .inl rfl⟩
    · exact ⟨a, .inr rfl⟩
  | unknownOpcode | addressOutOfRange | unsupportedAluOp => exact h.elim

theorem exec_status_eq {i : Instr} {s t : State} (h : exec i s = .next t) (hwf : i.wf = true) (hhlt : i ≠ .hlt)
    (hsp : ∀ a, i ≠ .push a ∧ i ≠ .pop a) : t.status = s.status := by
  obtain hc | ⟨r, hr, rfl⟩ := exec_eq_next h
  · exact hc.status_eq hhlt
  · obtain ⟨a, rfl | rfl⟩ := push_or_pop_of_mayRaise hwf hr
    · exact absurd rfl (hsp a).1
    · exact absurd rfl (hsp a).2

/-! ### The frames -/

/-- Settles O12: rA is the only register LDI and MUL may write, and they are none of the instructions that write another
state element. -/
theorem registerWritersFrame : Obligations.RegisterWritersFrame := by
  intro i a b s t hi h
  refine ⟨fun r hr => exec_getReg_eq h ?reg, exec_flE_eq h fun c d hc => ?cmp,
    exec_out_eq h fun c => ⟨fun hc => ?prn, fun hc => ?pra⟩,
    fun hwf => exec_status_eq h hwf (fun hc => ?hlt) fun c => ⟨fun hc => ?pushStatus, fun hc => ?popStatus⟩,
    memRead_congr (exec_mem_eq h fun c hc => ?push)⟩
  case reg => obtain rfl | rfl := hi <;> exact hr
  case cmp | prn | pra | hlt | pushStatus | popStatus | push => simp [hc] at hi

/-- Settles O13: the seven write no register and are not PUSH; for each other state element, by the instructions that
write it. -/
theorem nonWritersFrame : Obligations.NonWritersFrame := by
  intro i a b s t hi h
  refine ⟨fun r => exec_getReg_eq h ?reg, memRead_congr (exec_mem_eq h fun c hc => ?push),
    fun hcmp => exec_flE_eq h fun c d hc => ?cmp,
    fun hprn hpra => exec_out_eq h fun c => ⟨fun hc => ?prn, fun hc => ?pra⟩,
    fun hhlt hwf => exec_status_eq h hwf hhlt fun c => ⟨fun hc => ?pushStatus, fun hc => ?popStatus⟩⟩
  case reg => obtain rfl | rfl | rfl | rfl | rfl | rfl | rfl := hi <;> exact id
  case push | pushStatus | popStatus => simp [hc] at hi
  case cmp | prn | pra => simp_all

/-- Settles O14: the frame of `exec` for every state element but memory and `status`; there, by whether PUSH completes,
and so stores at `pushAddr`, or faults. -/
theorem pushFrame : Obligations.PushFrame := by
  intro a s t hm h
  refine ⟨fun r hr => exec_getReg_eq h hr, exec_flE_eq h (by simp), exec_out_eq h (by simp), ?_⟩
  have hsp : s.sp = 0#8 ↔ s.sp.toNat = 0 := by simp [← BitVec.toNat_inj]
  obtain ⟨ha, hne, rfl⟩ | ⟨ha, rfl⟩ | ⟨ha, hzero, rfl⟩ := execPush_eq_next h
  · refine ⟨fun addr haddr => ?_, ?_, fun _ _ => rfl⟩
    · exact (memRead_write hm (pushAddr_lt s) _ addr).trans (if_neg (Ne.symm haddr))
    · rintro (hge | hzero)
      · omega
      · exact absurd (hsp.1 hzero) hne
  · exact ⟨fun _ _ => rfl, fun _ => ⟨rfl, fun _ => rfl⟩, fun hlt => by omega⟩
  · exact ⟨fun _ _ => rfl, fun _ => ⟨rfl, fun _ => rfl⟩, fun _ hne => absurd (hsp.2 hzero) hne⟩

/-- Settles O15: the frame of `exec`, and by whether POP completes, and keeps `status`, or faults, and keeps the
registers. -/
theorem popFrame : Obligations.PopFrame := by
  intro a s t h
  refine ⟨fun r hra hrsp => exec_getReg_eq h (not_or.2 ⟨hra, hrsp⟩), exec_flE_eq h (by simp),
    exec_out_eq h (by simp), memRead_congr (exec_mem_eq h (by simp)), ?_⟩
  obtain hc | ⟨_, -, rfl⟩ := exec_eq_next h
  · exact .inl (hc.status_eq (by simp))
  · exact .inr fun _ => rfl

end Sys2Proof.Machine
end

section
/-! PROOFS. The exceptions family (spec/60_exceptions.md), continued: precise faults (R147, R150) and their
order (R149); and the invariant of every step, at reset and at boot (spec/10_state.md R27, R30). -/

namespace Sys2Proof.Machine

/-! ### Precise faults -/

/-- A fault of an instruction's row records a datum its kind can have. -/
theorem legalValue_of_mayRaise {i : Instr} {kind : FaultKind} {value : Int} (h : mayRaise i kind value) :
    kind.legalValue value := by
  cases kind with
  | registerIndexOutOfRange =>
    obtain ⟨b, hfind, rfl⟩ := h
    have hge : 8 ≤ b.toNat := by simpa using List.find?_some hfind
    have hlt := b.isLt
    exact ⟨by omega, by omega⟩
  | stackPointerOutOfRange =>
    obtain ⟨-, -, -, rfl⟩ | ⟨-, -, -, rfl⟩ := h
    · exact .inl rfl
    · exact .inr rfl
  | unknownOpcode | addressOutOfRange | unsupportedAluOp => exact h.elim

/-- A step of a running machine completes the instruction at PC, or takes a fault with a datum its kind can have. -/
theorem step_completes_or_faults_legally {s t : State} (h : step s = .next t) :
    (∃ i, executing s = some i ∧ Completes i s t) ∨
      ∃ r : Raise, t = s.takeFault r ∧ (s.pc ≤ 256 → r.kind.legalValue r.value) := by
  obtain ⟨-, ⟨i, -, hi, hexec⟩ | ⟨-, hpc, rfl⟩ | ⟨-, -, hrow, rfl⟩⟩ := step_eq_next h
  · obtain hc | ⟨r, hr, rfl⟩ := exec_eq_next hexec
    · exact .inl ⟨i, hi, hc⟩
    · exact .inr ⟨r, rfl, fun _ => legalValue_of_mayRaise hr⟩
  · exact .inr ⟨_, rfl, fun hle => ⟨by simp, by simp; omega⟩⟩
  · exact .inr ⟨_, rfl, fun _ => ⟨_, rfl, rowOf_eq_none_iff_notMem_knownOpcodes.1 hrow⟩⟩

/-- Settles O28: a completed instruction leaves no fault, so the state is that of `takeFault`, with its legal datum. -/
theorem faultsArePrecise : Obligations.FaultsArePrecise := by
  intro s t kind info h hfault
  obtain ⟨i, -, hc⟩ | ⟨r, rfl, hlegal⟩ := step_completes_or_faults_legally h
  · exact absurd hfault (hc.status_ne_faulted (running_of_step_next h) kind info)
  · cases hfault
    exact ⟨rfl, rfl, hlegal⟩

/-! ### The order of faults -/

/-- POP, its register in range, faults where the byte it increments is 255. -/
theorem exec_pop_of_toNat_255 {a : Byte} (ha : a.toNat < 8) {s : State}
    (hsp : (if a.toNat = 7 then s.mem.read s.sp.toNat else s.sp).toNat = 255) :
    exec (.pop a) s = .next (s.withFault .stackPointerOutOfRange 256) := by
  rw [exec, execPop_of_lt ha, if_pos ((popNewSp_eq_256_iff ha _ s).2 hsp), State.takeFault_eq_withFault]

/-- A completed instruction leaves a running machine running, unless it is HLT. -/
theorem Completes.running_or_halted {i : Instr} {s t : State} (h : Completes i s t) (hs : s.status = .running) :
    t.status = .running ∨ i = .hlt ∧ t.status = .halted := by
  by_cases hi : i = .hlt
  · subst hi
    cases h
    exact .inr ⟨rfl, rfl⟩
  · exact .inl ((h.status_eq hi).trans hs)

/-- The ALU's fault is never reached (R104). -/
theorem step_status_ne_unsupportedAluOp {s t : State} (h : step s = .next t) (info : FaultInfo) :
    t.status ≠ .faulted .unsupportedAluOp info := by
  intro hfault
  obtain hpc | hpc := Nat.lt_or_ge 256 s.pc
  · rw [step_of_ge (running_of_step_next h) (by omega)] at h
    cases h
    cases hfault
  · obtain ⟨-, -, hlegal⟩ := faultsArePrecise s t _ info h hfault
    exact hlegal hpc

/-- Settles O26: one lemma for each place of the order; where no check fails the instruction completes. -/
theorem faultsInPriorityOrder : Obligations.FaultsInPriorityOrder := by
  intro s hs
  refine ⟨step_of_ge hs, step_of_hltOpcode hs, step_of_notMem_knownOpcodes hs, fun i hi => ?_,
    fun t info h => step_status_ne_unsupportedAluOp h info⟩
  rw [step_of_executing hi]
  refine ⟨fun r hfind => exec_of_find hfind s, ?push, ?pop, fun hwf hpush hpop => ?completes⟩
  case push =>
    rintro a rfl ha hsp
    exact exec_push_of_sp_zero ha (BitVec.eq_of_toNat_eq hsp)
  case pop =>
    rintro a rfl ha hsp
    exact exec_pop_of_toNat_255 ha hsp
  case completes =>
    obtain ⟨t, hc⟩ := exists_completes_of_checks hwf hpush hpop
    exact ⟨t, exec_of_completes hc, hc.running_or_halted hs⟩

/-! ### The invariant -/

theorem exec_wf_mem {i : Instr} {s t : State} (h : exec i s = .next t) (hm : s.mem.wf = true) : t.mem.wf = true := by
  by_cases hi : ∀ a, i ≠ .push a
  · rw [exec_mem_eq h hi]
    exact hm
  · obtain ⟨a, rfl⟩ := not_forall_not.1 hi
    obtain ⟨-, -, rfl⟩ | ⟨-, rfl⟩ | ⟨-, -, rfl⟩ := execPush_eq_next h
    · exact Memory.wf_write hm (pushAddr_lt s) _
    · exact hm
    · exact hm

/-- PC moves at most past the window it was fetched from, or to an address held in a register. -/
theorem Completes.pc_le {i : Instr} {s t : State} (h : Completes i s t) (hpc : s.pc ≤ 253) : t.pc ≤ 256 := by
  have hjump (v : Byte) : (s.jumpTo v).pc ≤ 256 := v.isLt.le
  cases h with
  | jmp ha => exact hjump _
  | jeq ha | jne ha =>
    split
    · exact hjump _
    · simp; omega
  | _ => simp; omega

/-- Settles O33: memory stays canonical through `exec_wf_mem`; a completed instruction moves PC at most to 256
(`Completes.pc_le`) and leaves no fault; a fault keeps PC, and its datum is legal since PC is at most 256. -/
theorem stepKeepsInvariant : Obligations.StepKeepsInvariant := by
  intro s t hinv h
  obtain ⟨i, hi, hc⟩ | ⟨r, rfl, hlegal⟩ := step_completes_or_faults_legally h
  · obtain ⟨hs, hpc⟩ := running_and_le_of_executing hi
    refine ⟨exec_wf_mem (exec_of_completes hc) hinv.memWf, hc.pc_le hpc, ?_⟩
    obtain hrun | ⟨rfl, -⟩ := hc.running_or_halted hs
    · rw [hrun]
      trivial
    · cases hc
      exact hpc
  · exact ⟨hinv.memWf, hinv.pcLe, rfl, hlegal hinv.pcLe⟩

/-- Settles O31: memory is empty, PC is 0 and the machine runs, whatever the parameters. -/
theorem invariantAtReset : Obligations.InvariantAtReset :=
  have h (p : Config.Params) : (State.resetWith p).Inv := ⟨rfl, Nat.zero_le _, trivial⟩
  ⟨h, h _⟩

/-- Settles O32: an accepted image is written inside the address space, and the rest is as reset left it (O31). -/
theorem invariantAtBoot : Obligations.InvariantAtBoot := by
  intro p image s h
  unfold boot load at h
  split at h <;> cases h
  next hlen =>
    obtain ⟨hm, hpc, hstatus⟩ := invariantAtReset.1 p
    have hfits : 0 + image.length ≤ 256 := by rw [Config.memSize_eq] at hlen; omega
    exact ⟨⟨Memory.wf_writeBytes hm hfits, hpc, hstatus⟩, rfl⟩

end Sys2Proof.Machine
end

section
/-! PROOFS. The stack family (spec/43_stack.md): PUSH (R125) and POP (R128) over every operand byte, one after the other
(E3), and the byte a PUSH writes as memory and the next fetch see it (R42, R50). -/

namespace Sys2Proof.Machine

/-! ### PUSH (R125) -/

/-- The decremented SP, where it does not wrap. -/
theorem sub_one_eq_ofNat {v : Byte} (h : v.toNat ≠ 0) : v - 1#8 = BitVec.ofNat 8 (v.toNat - 1) := by
  apply BitVec.eq_of_toNat_eq
  have := v.isLt
  simp only [BitVec.toNat_sub, BitVec.toNat_ofNat]
  omega

/-- What PUSH stores: the byte of its register, for SP that after the decrement (D22). -/
theorem pushValue_eq {a : Byte} (ha : a.toNat < 8) (s : State) :
    pushValue ⟨a.toNat, ha⟩ s = if a.toNat = 7 then s.sp - 1#8 else s.x[a.toNat] := by
  have hsp : Config.spIndex = ⟨a.toNat, ha⟩ ↔ a.toNat = 7 := Fin.ext_iff.trans eq_comm
  rw [pushValue, State.getReg_decSp, State.getReg_eq, if_congr hsp rfl rfl]

/-- The state a completed PUSH leaves, written out. -/
theorem push_state_eq {a : Byte} (ha : a.toNat < 8) {s : State} (hsp : s.x[7].toNat ≠ 0) :
    State.advance { s.decSp with mem := s.mem.write (pushAddr s) (pushValue ⟨a.toNat, ha⟩ s) } 2 =
      { s with
        x := s.x.set 7 (BitVec.ofNat 8 (s.x[7].toNat - 1))
        mem := s.mem.write (s.x[7].toNat - 1)
          (if a.toNat = 7 then BitVec.ofNat 8 (s.x[7].toNat - 1) else s.x[a.toNat])
        pc := s.pc + 2 } := by
  have hx : s.sp = s.x[7] := rfl
  rw [pushAddr_eq hsp, pushValue_eq ha, hx, ← sub_one_eq_ofNat hsp]
  rfl

/-- Settles O6: the register check, then the SP check, then the state of `push_state_eq`. -/
theorem pushDecrementsThenStores : Obligations.PushDecrementsThenStores := by
  intro a s
  refine ⟨rfl, fun ha => ⟨fun hsp => ?stores, fun hsp => ?spFault⟩, fun ha => formR_of_ge_eq_withFault ha ..⟩
  case stores => rw [exec_of_completes (.push ha hsp), push_state_eq ha hsp]
  case spFault => exact exec_push_of_sp_zero ha (BitVec.eq_of_toNat_eq hsp)

/-! ### POP (R128) -/

theorem popNewSp_of_ne {a : Byte} (ha : a.toNat < 8) (hne : a.toNat ≠ 7) (v : Byte) (s : State) :
    popNewSp ⟨a.toNat, ha⟩ v s = s.x[7].toNat + 1 := by
  rw [popNewSp, if_neg fun h => hne (Fin.ext_iff.1 h)]
  rfl

theorem popNewSp_of_eq {a : Byte} (ha : a.toNat < 8) (heq : a.toNat = 7) (v : Byte) (s : State) :
    popNewSp ⟨a.toNat, ha⟩ v s = v.toNat + 1 := by
  rw [popNewSp, if_pos (Fin.ext heq)]

/-- The state a completed POP leaves, written out. -/
theorem pop_state_eq (ra : RegIdx) (v : Byte) (s : State) :
    (s.setReg ra v).incSp.advance 2 =
      { s with x := (s.x.set ra.val v).set 7 (BitVec.ofNat 8 (popNewSp ra v s)), pc := s.pc + 2 } := by
  have hsp : (s.setReg ra v).sp + 1#8 = BitVec.ofNat 8 (popNewSp ra v s) := by
    apply BitVec.eq_of_toNat_eq
    simp [popNewSp, State.sp_eq]
  rw [← hsp]
  rfl

/-- Settles O7: the register check, then the check of the SP that POP would leave, for POP SP that of the popped
byte. -/
theorem popReadsThenIncrements : Obligations.PopReadsThenIncrements := by
  intro a s
  refine ⟨rfl, fun ha hne => ⟨fun hsp => ?pops, fun hsp => ?spFault⟩,
    fun h7 => ⟨fun hsp => ?popsSp, fun hsp => ?poppedFault⟩, fun ha => formR_of_ge_eq_withFault ha ..⟩
  case pops =>
    have hnew := popNewSp_of_ne ha hne (s.mem.read s.sp.toNat) s
    rw [exec_of_completes (.pop ha (by omega)), pop_state_eq, hnew]
    rfl
  case spFault => exact exec_pop_of_toNat_255 ha (by rw [if_neg hne]; exact hsp)
  case popsSp =>
    have ha : a.toNat < 8 := by omega
    have hnew := popNewSp_of_eq ha h7 (s.mem.read s.sp.toNat) s
    have hpopped : (s.mem.read s.sp.toNat).toNat < 255 := hsp
    rw [exec_of_completes (.pop ha (by omega)), pop_state_eq, hnew]
    simp only [h7, Vector.set_set]
    rfl
  case poppedFault => exact exec_pop_of_toNat_255 (by omega) (by rw [if_pos h7]; exact hsp)

/-! ### PUSH, then POP (E3) -/

/-- PUSH of a register other than SP stores the byte of that register. -/
theorem pushValue_of_lt {a : Byte} (ha : a.toNat < 7) (s : State) :
    pushValue ⟨a.toNat, by omega⟩ s = s.x[a.toNat] := by
  rw [pushValue_eq, if_neg (by omega)]

/-- After a completed PUSH, SP points at the cell stored to, one below the old SP, and the cell holds the byte. -/
theorem push_sp_and_read {a : Byte} (ha : a.toNat < 7) {s t : State} (hm : s.mem.wf = true) (hsp : s.sp.toNat ≠ 0)
    (h : exec (.push a) s = .next t) :
    t.sp.toNat = s.sp.toNat - 1 ∧ t.mem.read (s.sp.toNat - 1) = s.x[a.toNat] ∧ t.pc = s.pc + 2 := by
  rw [exec_of_completes (.push (by omega) hsp)] at h
  cases h
  refine ⟨pushAddr_eq hsp, ?_, rfl⟩
  rw [State.advance_mem, pushAddr_eq hsp, pushValue_of_lt ha, Memory.read_write hm, if_pos rfl]

/-- A completed POP of a register other than SP: the byte at SP in that register, and SP one further. -/
theorem exists_exec_pop_of_ne {c : Byte} (hc : c.toNat < 7) {t : State} (hsp : t.sp.toNat < 255) :
    ∃ u, exec (.pop c) t = .next u ∧ u.x[c.toNat] = t.mem.read t.sp.toNat ∧ u.sp.toNat = t.sp.toNat + 1 ∧
      u.pc = t.pc + 2 ∧ u.mem = t.mem := by
  have hnew : popNewSp ⟨c.toNat, by omega⟩ (t.mem.read t.sp.toNat) t = t.sp.toNat + 1 :=
    popNewSp_of_ne _ (by omega) _ t
  refine ⟨_, exec_of_completes (.pop (by omega) (by omega)), ?_⟩
  rw [pop_state_eq, hnew]
  refine ⟨?reg, ?sp, rfl, rfl⟩
  case reg => simp [show 7 ≠ c.toNat by omega]
  case sp =>
    rw [State.sp, State.getReg_eq]
    simp [Config.spIndex]
    omega

/-- Settles O42: PUSH leaves SP at the cell it stores to, so POP reads that cell and increments SP back. -/
theorem pushThenPopRoundTrips : Obligations.PushThenPopRoundTrips := by
  intro a c s ha hc hm hsp
  obtain ⟨t, hpush⟩ := exec_answers_next (.push a) s
  obtain ⟨htsp, hread, htpc⟩ := push_sp_and_read ha hm (by omega) hpush
  have hlt := s.sp.isLt
  obtain ⟨u, hpop, hreg, husp, hupc, humem⟩ := exists_exec_pop_of_ne hc (t := t) (by omega)
  refine ⟨t, u, hpush, hpop, ?_, BitVec.eq_of_toNat_eq (by omega), by omega, ?_⟩
  · rw [hreg, htsp, hread]
  · rw [memRead_of_lt (by omega), humem, hread]

/-- Settles O43: the window is three cells, and the pushed byte is at the cell one below the old SP. -/
theorem pushedByteIsFetchedAtOnce : Obligations.PushedByteIsFetchedAtOnce := by
  intro a s t ha hm hsp h hpc
  have hne : s.sp.toNat ≠ 0 := fun hzero => hsp (BitVec.eq_of_toNat_eq hzero)
  obtain ⟨-, hread, -⟩ := push_sp_and_read ha hm hne h
  refine ⟨_, fetch_of_le hpc, fun h => ?_, fun h => ?_, fun h => ?_⟩ <;> (rw [← hread, ← h]; rfl)

/-! ### Who writes memory (R42) -/

/-- Settles O36: a step that changes a byte completes a PUSH, which writes the one cell at `pushAddr`, its new SP. -/
theorem onlyPushChangesMemory : Obligations.OnlyPushChangesMemory := by
  intro s t addr hm h hchanged
  obtain ⟨r, rfl⟩ | ⟨i, hi, hc⟩ := step_completes_or_faults h
  · exact absurd (memRead_congr rfl addr) hchanged
  · obtain ⟨a, rfl⟩ : ∃ a, i = .push a := by
      by_contra hne
      exact hchanged (memRead_congr (exec_mem_eq (exec_of_completes hc) (not_exists.1 hne)) addr)
    cases hc with
    | push ha hsp =>
      obtain rfl : pushAddr s = addr := by
        by_contra hne
        exact hchanged ((memRead_write hm (pushAddr_lt s) _ addr).trans (if_neg hne))
      have haddr := pushAddr_eq hsp
      exact ⟨⟨a, hi⟩, by omega, rfl⟩

end Sys2Proof.Machine
end

section
/-! PROOFS. The output channel (spec/10_state.md R33): the events of a step, and that no step depends on it; and short
sequences: LDI then PRN (E1), CMP then JEQ (R109), and the JMP that hangs (R135). -/

namespace Sys2Proof.Machine

/-! ### The output channel -/

/-- The events an instruction appends to the output: one for a PRN or PRA of an existing register. -/
def eventsOf (s : State) : Instr → List OutEvent
  | .prn a => if h : a.toNat < 8 then [.outDec (s.getReg ⟨a.toNat, h⟩)] else []
  | .pra a => if h : a.toNat < 8 then [.outChar (s.getReg ⟨a.toNat, h⟩)] else []
  | _ => []

theorem eventsOf_prn_ofNat (s : State) (r : RegIdx) :
    eventsOf s (.prn (BitVec.ofNat 8 r.val)) = [.outDec (s.getReg r)] := by
  have hr : (BitVec.ofNat 8 r.val).toNat = r.val := by simp; omega
  simp [eventsOf, hr]

theorem eventsOf_pra_ofNat (s : State) (r : RegIdx) :
    eventsOf s (.pra (BitVec.ofNat 8 r.val)) = [.outChar (s.getReg r)] := by
  have hr : (BitVec.ofNat 8 r.val).toNat = r.val := by simp; omega
  simp [eventsOf, hr]

theorem eventsOf_eq_nil {i : Instr} {s : State}
    (h : ∀ r : RegIdx, i ≠ .prn (BitVec.ofNat 8 r.val) ∧ i ≠ .pra (BitVec.ofNat 8 r.val)) :
    eventsOf s i = [] := by
  cases i with
  | prn a => exact dif_neg fun ha => (h ⟨_, ha⟩).1 (by simp)
  | pra a => exact dif_neg fun ha => (h ⟨_, ha⟩).2 (by simp)
  | _ => rfl

/-- The second outcome follows the first with other output: where the first answers a next state, the second answers
the same state with `o` and then the events `es` as its output. -/
def FollowsWithOut (o es : List OutEvent) (r r' : Result) : Prop :=
  ∀ t, r = .next t → r' = .next { t with out := o ++ es }

theorem FollowsWithOut.next {o es : List OutEvent} {t t' : State} (h : t' = { t with out := o ++ es }) :
    FollowsWithOut o es (.next t) (.next t') := by
  rintro _ ⟨⟩
  rw [h]

/-- A next state without an event. -/
theorem FollowsWithOut.silent {o : List OutEvent} {t t' : State} (h : t' = { t with out := o }) :
    FollowsWithOut o [] (.next t) (.next t') :=
  .next (by rw [h, List.append_nil])

/-- A check does not read the output, and a fault adds no event. -/
theorem FollowsWithOut.check {α : Type} {o : List OutEvent} {s : State} {k k' : α → Result} (c : Except Raise α)
    (hk : ∀ a, FollowsWithOut o [] (k a) (k' a)) :
    FollowsWithOut o [] (attempt s c k) (attempt { s with out := o } c k') := by
  cases c with
  | ok a => exact hk a
  | error r => exact .silent rfl

/-- PRN and PRA emit one event when their register exists, and fault without one when it does not. -/
theorem FollowsWithOut.emit {o : List OutEvent} {s : State} (a : Byte) (event : Byte → OutEvent) :
    FollowsWithOut o (if h : a.toNat < 8 then [event (s.getReg ⟨a.toNat, h⟩)] else [])
      (formR a s fun ra => .next ((s.emit (event (s.getReg ra))).advance 2))
      (formR a { s with out := o } fun ra =>
        .next ((State.emit { s with out := o } (event (State.getReg { s with out := o } ra))).advance 2)) := by
  by_cases ha : a.toNat < 8
  · rw [dif_pos ha, formR_of_lt ha, formR_of_lt ha]
    exact .next rfl
  · rw [dif_neg ha, formR_of_ge (Nat.le_of_not_lt ha), formR_of_ge (Nat.le_of_not_lt ha)]
    exact .silent rfl

theorem FollowsWithOut.jumpIf {o : List OutEvent} {s : State} (taken : Bool) (a : Byte) :
    FollowsWithOut o [] (jumpIf taken a s) (jumpIf taken a { s with out := o }) := by
  cases taken <;> exact .check _ fun _ => .silent rfl

/-- No instruction reads the output: its checks, its writes and its events are the same for any. -/
theorem exec_followsWithOut (i : Instr) (s : State) (o : List OutEvent) :
    FollowsWithOut o (eventsOf s i) (exec i s) (exec i { s with out := o }) := by
  cases i with
  | prn a => exact .emit a .outDec
  | pra a => exact .emit a .outChar
  | hlt => exact .silent rfl
  | ldi a imm => exact .check _ fun _ => .silent rfl
  | jmp a => exact .check _ fun _ => .silent rfl
  | mul a b => exact .check _ fun _ => .check _ fun _ => .silent rfl
  | cmp a b => exact .check _ fun _ => .check _ fun _ => .silent rfl
  | jeq a => exact .jumpIf _ a
  | jne a => exact .jumpIf _ a
  | pop a => exact .check _ fun _ => .check _ fun _ => .check _ fun _ => .silent rfl
  | push a =>
    refine .check _ fun ra => .check _ fun _ => ?_
    rw [memWrite_pushAddr, memWrite_pushAddr]
    exact .silent rfl

/-- The events a step appends to the output: those of the instruction it executes. -/
def stepEvents (s : State) : List OutEvent := (executing s).elim [] (eventsOf s)

/-- No step reads the output. -/
theorem step_followsWithOut (s : State) (o : List OutEvent) :
    FollowsWithOut o (stepEvents s) (step s) (step { s with out := o }) := by
  cases hi : executing s with
  | some i =>
    have hi' : executing { s with out := o } = some i := hi
    rw [step_of_executing hi, step_of_executing hi', stepEvents, hi]
    exact exec_followsWithOut i s o
  | none =>
    rw [stepEvents, hi]
    intro t h
    obtain ⟨hs, ⟨i, -, hsome, -⟩ | ⟨-, hpc, rfl⟩ | ⟨-, hpc, hrow, rfl⟩⟩ := step_eq_next h
    · rw [hi] at hsome
      cases hsome
    · rw [step_of_ge (s := { s with out := o }) hs hpc, Option.elim_none, List.append_nil]
      rfl
    · rw [step_of_notMem_knownOpcodes (s := { s with out := o }) hs hpc
        (rowOf_eq_none_iff_notMem_knownOpcodes.1 hrow), Option.elim_none, List.append_nil]
      rfl

/-- Settles O37: the events are those of `stepEvents`, and the step from any other output follows
(`step_followsWithOut`); from the state's own output it is the step itself. -/
theorem outputOnlyGrowsAndIsNeverRead : Obligations.OutputOnlyGrowsAndIsNeverRead := by
  refine ⟨fun p => rfl, fun s t h => ⟨stepEvents s, ?grows, fun r hi => ?prn, fun r hi => ?pra, fun hne => ?silent,
    fun o => step_followsWithOut s o t h⟩⟩
  case grows =>
    have hself : step s = .next { t with out := s.out ++ stepEvents s } := step_followsWithOut s s.out t h
    exact congrArg State.out (Host.Outcome.next.inj (h.symm.trans hself))
  case prn => rw [stepEvents, hi, Option.elim_some, eventsOf_prn_ofNat]
  case pra => rw [stepEvents, hi, Option.elim_some, eventsOf_pra_ofNat]
  case silent =>
    rw [stepEvents]
    cases hi : executing s with
    | none => rfl
    | some i => exact eventsOf_eq_nil fun r => by simpa [hi] using hne r

/-! ### Two instructions in a row -/

/-- Settles O44: LDI leaves the register with the value that PRN then emits. -/
theorem loadThenPrintShowsTheValue : Obligations.LoadThenPrintShowsTheValue := by
  intro a v s ha
  refine ⟨_, _, exec_of_completes (.ldi ha), exec_of_completes (.prn ha), ?_, rfl⟩
  simp

theorem equalFlag_eq_one_iff (e : Bit) (va vb : Byte) : equalFlag e va vb = 1#1 ↔ e = 1#1 ∨ va = vb := by
  by_cases h : va = vb
  · simp [h]
  · simp [equalFlag_of_ne h, h]

/-- Settles O45: JEQ reads the flag that `equalFlag` leaves, which is set when it was or when the registers are equal,
and the registers, which CMP keeps. -/
theorem compareThenJumpSeesStickyFlag : Obligations.CompareThenJumpSeesStickyFlag := by
  intro a b c s ha hb hc
  refine ⟨_, _, exec_of_completes (.cmp ha hb), exec_of_completes (.jeq hc), ?_⟩
  simp only [apply_ite State.pc, State.equalSet_iff, State.advance_flE, State.setFlE_flE, equalFlag_eq_one_iff]
  rfl

/-! ### A JMP to its own address (R135) -/

/-- A run from a state that steps to itself stays there. -/
theorem run_of_step_self {s : State} (h : step s = .next s) (n : Nat) : Sys2Proof.core.run n s = .next s := by
  induction n with
  | zero => rfl
  | succ n ih => rw [run_succ_of_next h, ih]

/-- Settles O39: the window is a JMP whose register holds PC, so the step answers the state it starts from. -/
theorem jumpToItselfHangs : Obligations.JumpToItselfHangs := by
  intro s a ha hs hpc hop hreg hself
  refine run_of_step_self ?_
  have hwindow : decodeWindow (s.mem.read s.pc) (s.mem.read (s.pc + 1)) (s.mem.read (s.pc + 2)) = .ok (.jmp a) := by
    rw [hop, hreg]
    rfl
  rw [(stepRunsDecodedInstruction s _ hs hpc hwindow).1, exec_jmp, formR_of_lt ha, State.jumpTo_getReg, hself]

end Sys2Proof.Machine
end

section
/-! PROOFS. The canonical form of memory (spec/10_state.md R30), the ALU (spec/41_alu.md R100), and the interfaces at
the block's boundary: reset (R170), load (R172), snapshot (R163), the host's view (R158) and the observation (R178). -/

namespace Sys2Proof.Machine

/-! ### The canonical form -/

theorem Memory.read_cons_of_ne {k a : Nat} (h : k ≠ a) (v : Byte) (m : Memory) :
    Memory.read ((k, v) :: m) a = Memory.read m a := if_neg h

theorem Memory.read_cons_self (k : Nat) (v : Byte) (m : Memory) : Memory.read ((k, v) :: m) k = v := if_pos rfl

/-- A memory whose cells read as another's do lists nothing below the other's first cell. -/
theorem Memory.head_le_of_read_eq {lo lo' k k' : Nat} {v v' : Byte} {m m' : Memory}
    (hm : Memory.wfFrom lo ((k, v) :: m) = true) (hm' : Memory.wfFrom lo' ((k', v') :: m') = true)
    (h : ∀ a, Memory.read ((k, v) :: m) a = Memory.read ((k', v') :: m') a) : k' ≤ k := by
  by_contra hlt
  obtain ⟨-, -, hv, -⟩ := Memory.wfFrom_cons.1 hm
  obtain ⟨-, hcell⟩ := Memory.wfFrom_cons.1 hm'
  have hbelow := Memory.read_below (Memory.wfFrom_cons.2 ⟨le_rfl, hcell⟩) (Nat.lt_of_not_le hlt)
  exact hv (by rw [← hbelow, ← h k, Memory.read_cons_self])

/-- Canonical lists of cells that read the same are the same: they have the same first cell, and below and after it
their rests read the same. -/
theorem Memory.eq_of_read_eq {lo lo' : Nat} {m m' : Memory} (hm : Memory.wfFrom lo m = true)
    (hm' : Memory.wfFrom lo' m' = true) (h : ∀ a, Memory.read m a = Memory.read m' a) : m = m' := by
  induction m generalizing lo lo' m' with
  | nil =>
    cases m' with
    | nil => rfl
    | cons c m' =>
      obtain ⟨-, -, hv, -⟩ := Memory.wfFrom_cons.1 hm'
      exact absurd ((h c.1).trans (Memory.read_cons_self ..)).symm hv
  | cons c m ih =>
    obtain ⟨k, v⟩ := c
    obtain ⟨-, -, hv, hrest⟩ := Memory.wfFrom_cons.1 hm
    cases m' with
    | nil => exact absurd ((Memory.read_cons_self ..).symm.trans (h k)) hv
    | cons c' m' =>
      obtain ⟨k', v'⟩ := c'
      obtain ⟨-, -, -, hrest'⟩ := Memory.wfFrom_cons.1 hm'
      obtain rfl : k = k' :=
        Nat.le_antisymm (Memory.head_le_of_read_eq hm' hm fun a => (h a).symm) (Memory.head_le_of_read_eq hm hm' h)
      obtain rfl : v = v' := by simpa [Memory.read_cons_self] using h k
      have htails : ∀ a, Memory.read m a = Memory.read m' a := by
        intro a
        obtain hlt | hge := Nat.lt_or_ge a (k + 1)
        · rw [Memory.read_below hrest hlt, Memory.read_below hrest' hlt]
        · have hne : k ≠ a := by omega
          simpa only [Memory.read_cons_of_ne hne] using h a
      rw [ih hrest hrest' htails]

/-- Settles O41: what the two read alike below 256 they read alike everywhere, for no canonical memory lists a cell
above. -/
theorem canonicalMemoriesAreEqualWhenTheyReadEqual : Obligations.CanonicalMemoriesAreEqualWhenTheyReadEqual := by
  intro m m' hm hm' h
  refine Memory.eq_of_read_eq hm hm' fun a => ?_
  obtain hlt | hge := Nat.lt_or_ge a 256
  · exact h a hlt
  · rw [Memory.read_above hm hge, Memory.read_above hm' hge]

/-! ### The end of a run (R178) -/

theorem observe_of_ended {s : State} (h : s.status ≠ .running) :
    observe s = some
      { status := s.status, x := s.x, pc := s.pc, flE := s.flE,
        mem := (List.range Config.memSize).map s.mem.read, out := s.out } :=
  if_pos (decide_eq_true h)

theorem observe_of_running {s : State} (h : s.status = .running) : observe s = none :=
  if_neg (by simp [State.ended, h])

/-- Settles O51: an observation shows every field, memory cell by cell, which on canonical memories determines it
(O41). -/
theorem observationIsTheWholeFinalState : Obligations.ObservationIsTheWholeFinalState := by
  intro s t hs ht
  by_cases hrun : s.status = .running
  · simp [observe_of_running hrun, hrun]
  · refine ⟨by simp [observe_of_ended hrun, hrun], fun _ hobs => ?_⟩
    have htrun : t.status ≠ .running := fun h => by
      rw [observe_of_ended hrun, observe_of_running h] at hobs
      cases hobs
    rw [observe_of_ended hrun, observe_of_ended htrun] at hobs
    obtain ⟨hstatus, hx, hpc, hfl, hmem, hout⟩ := Observation.mk.inj (Option.some.inj hobs)
    have hread : ∀ addr < 256, s.mem.read addr = t.mem.read addr := fun addr haddr =>
      List.map_inj_left.1 hmem addr (List.mem_range.2 haddr)
    have hmem' := canonicalMemoriesAreEqualWhenTheyReadEqual _ _ hs ht hread
    exact State.ext_fields (fun i => congrArg (·.get i) hx) hpc hfl hmem' hstatus hout

/-! ### The ALU (R100) -/

/-- Settles O46: the ALU's equation for each selector. -/
theorem aluOperations : Obligations.AluOperations := by
  intro a b s sel
  refine ⟨⟨_, alu_add a b s, ?add, ?addFrame⟩,
    ⟨_, _, alu_mul a b s, State.getReg_setReg_self .., toNat_wrapByte _, rfl⟩,
    ⟨_, alu_cmp a b s, fun heq => ?equal, fun hne => ?unequal⟩, alu_other sel a b s⟩
  case add => rw [State.getReg_setReg_self, toNat_wrapByte]
  case addFrame =>
    rw [State.getReg_setReg_self]
    rfl
  case equal =>
    rw [heq, equalFlag_self]
    rfl
  case unequal =>
    rw [equalFlag_of_ne hne]
    rfl

/-! ### Reset (R170) and load (R172) -/

/-- Settles O47: the parameters stand in r0..r6 and SP, and every other element has its fixed reset value. -/
theorem resetValues : Obligations.ResetValues :=
  ⟨fun _ => ⟨fun _ haddr => memRead_of_lt haddr _, fun _ hr => Vector.getElem_push_lt hr,
    Vector.getElem_push_eq .., rfl, rfl, rfl, rfl⟩, rfl, rfl⟩

/-- An image written over an empty memory: its bytes from 0 on, and 0 above. -/
theorem read_writeBytes_nil {image : List Byte} (hlen : image.length ≤ 256) (addr : Nat) :
    (Memory.writeBytes [] 0 image).read addr = image.getD addr 0#8 := by
  rw [Memory.read_writeBytes Memory.wf_nil (by omega), Memory.read_nil]
  obtain hlt | hge := Nat.lt_or_ge addr image.length
  · simp [hlt]
  · simp [Nat.not_lt.2 hge]

/-- Settles O48: `load` writes the image over the empty memory of reset, or refuses it. -/
theorem loadPlacesImageAtZero : Obligations.LoadPlacesImageAtZero := by
  intro p image
  constructor
  · intro hlen
    refine ⟨_, if_neg (Nat.not_lt.2 hlen), fun addr haddr => ?_, rfl⟩
    exact (memRead_of_lt haddr _).trans (congrArg _ (read_writeBytes_nil hlen addr))
  · exact fun hlen => if_pos hlen

/-! ### Snapshot (R163) -/

/-- The tracer sees a cell exactly when the core could read it (D19). -/
theorem snapshotCell_eq_some_iff (addr : Nat) (s : State) (b : Byte) :
    snapshotCell addr s = some b ↔ memRead addr s = .ok b := by
  obtain hlt | hge := Nat.lt_or_ge addr 256
  · rw [snapshotCell, Config.memSize_eq, if_pos hlt, memRead_of_lt hlt]
    simp
  · rw [snapshotCell, Config.memSize_eq, if_neg (Nat.not_lt.2 hge), memRead_of_ge hge]
    simp

/-- Settles O49: each cell by `snapshotCell_eq_some_iff`. -/
theorem snapshotShowsTheWindow : Obligations.SnapshotShowsTheWindow :=
  fun s => ⟨rfl, rfl, rfl, snapshotCell_eq_some_iff _ s, snapshotCell_eq_some_iff _ s, snapshotCell_eq_some_iff _ s⟩

/-! ### The host's view (R158) -/

/-- Settles O50: the host's mapping, kind by kind. -/
theorem hostSeesEndStates : Obligations.HostSeesEndStates := by
  refine ⟨fun op pc => ⟨rfl, rfl⟩, fun kind info hkind => ?exitCode, Nat.succ_ne_zero _, fun kind info => ?report,
    rfl, rfl⟩
  case exitCode =>
    cases kind with
    | unknownOpcode => exact absurd rfl hkind
    | _ => rfl
  case report => cases kind <;> rfl

end Sys2Proof.Machine
end

section
/-! PROOFS. The assembler (spec/30_encoding.md R68): registers and numbers parse back from their text, a line is read by
the format of its row, and so every well-formed instruction parses back from its line. -/

namespace Sys2Proof.Machine

/-! ### Blanks and commas -/

/-- A text without a blank. -/
def NoBlank (t : List Char) : Prop := ∀ c ∈ t, isBlank c = false

theorem NoBlank.append {t u : List Char} (ht : NoBlank t) (hu : NoBlank u) : NoBlank (t ++ u) :=
  List.forall_mem_append.2 ⟨ht, hu⟩

theorem NoBlank.cons {c : Char} {t : List Char} (hc : isBlank c = false) (ht : NoBlank t) : NoBlank (c :: t) :=
  List.forall_mem_cons.2 ⟨hc, ht⟩

theorem NoBlank.reverse {t : List Char} (ht : NoBlank t) : NoBlank t.reverse :=
  fun c hc => ht c (List.mem_reverse.1 hc)

theorem NoBlank.dropWhile {t : List Char} (ht : NoBlank t) : t.dropWhile isBlank = t :=
  List.dropWhile_eq_self_iff.2 fun h => by simp [ht _ (List.getElem_mem h)]

theorem NoBlank.dropWhile_append {t : List Char} (ht : NoBlank t) (hne : t ≠ []) (u : List Char) :
    (t ++ u).dropWhile isBlank = t ++ u := by
  cases t with
  | nil => exact absurd rfl hne
  | cons c t => exact List.dropWhile_cons_of_neg (by simp [ht c List.mem_cons_self])

/-- Trimming leaves a text that starts and ends with one without blanks. -/
theorem trimBlanks_append {t u : List Char} (ht : NoBlank t) (hu : NoBlank u) (hne : t ≠ []) (hne' : u ≠ [])
    (mid : List Char) : trimBlanks (t ++ mid ++ u) = t ++ mid ++ u := by
  have hne'' : u.reverse ≠ [] := mt List.reverse_eq_nil_iff.1 hne'
  rw [trimBlanks, List.append_assoc, ht.dropWhile_append hne, ← List.append_assoc, List.reverse_append,
    hu.reverse.dropWhile_append hne'', ← List.reverse_append, List.reverse_reverse]

theorem trimBlanks_of_noBlank {t : List Char} (ht : NoBlank t) : trimBlanks t = t := by
  rw [trimBlanks, ht.dropWhile, ht.reverse.dropWhile, List.reverse_reverse]

theorem trimBlanks_blank_cons (t : List Char) : trimBlanks (' ' :: t) = trimBlanks t := by
  rw [trimBlanks, List.dropWhile_cons_of_pos (by decide), trimBlanks]

theorem splitCommas_of_notMem {t : List Char} (ht : ',' ∉ t) : splitCommas t = [t] := by
  induction t with
  | nil => rfl
  | cons c t ih =>
    obtain ⟨hc, ht⟩ := not_or.1 (mt List.mem_cons.2 ht)
    rw [splitCommas, if_neg (Ne.symm hc), ih ht]

theorem splitCommas_append_comma {t : List Char} (ht : ',' ∉ t) (u : List Char) :
    splitCommas (t ++ ',' :: u) = t :: splitCommas u := by
  induction t with
  | nil => exact if_pos rfl
  | cons c t ih =>
    obtain ⟨hc, ht⟩ := not_or.1 (mt List.mem_cons.2 ht)
    rw [List.cons_append, splitCommas, if_neg (Ne.symm hc), ih ht]

/-! ### The text of a register and of a number -/

/-- The text of an operand: no blank and no comma in it, and not empty. -/
structure IsOperandText (t : List Char) : Prop where
  noBlank : NoBlank t
  noComma : ',' ∉ t
  ne_nil : t ≠ []

theorem isDigit_ne {c d : Char} (hc : c.isDigit = true) (hd : d.isDigit = false) : c ≠ d := by
  rintro rfl
  rw [hc] at hd
  cases hd

theorem isOperandText_toDigits (n : Nat) : IsOperandText (Nat.toDigits 10 n) := by
  have hdigit {c : Char} (hc : c ∈ Nat.toDigits 10 n) : c.isDigit = true :=
    Nat.isDigit_of_mem_toDigits (by omega) le_rfl hc
  refine ⟨fun c hc => ?_, fun hc => isDigit_ne (hdigit hc) rfl rfl, Nat.toDigits_ne_nil⟩
  have hspace : c ≠ ' ' := isDigit_ne (hdigit hc) rfl
  have htab : c ≠ '\t' := isDigit_ne (hdigit hc) rfl
  simp [isBlank, hspace, htab]

theorem isOperandText_printReg (a : Byte) : IsOperandText (printReg a) := by
  obtain ⟨hblank, hcomma, -⟩ := isOperandText_toDigits a.toNat
  exact ⟨hblank.cons rfl, List.not_mem_cons_of_ne_of_not_mem (by decide) hcomma, List.cons_ne_nil _ _⟩

/-- The text of an existing register names it: one digit after the `r`. -/
theorem parseReg_printReg {a : Byte} (ha : a.toNat < 8) : parseReg (printReg a) = some a := by
  have h : ∀ n < 8, parseReg (printReg (BitVec.ofNat 8 n)) = some (BitVec.ofNat 8 n) := by decide
  simpa using h a.toNat ha

theorem digitVal_of_isDigit {c : Char} (hc : c.isDigit = true) : digitVal 10 c = some (c.toNat - '0'.toNat) := by
  have hrange : '0' ≤ c ∧ c ≤ '9' := by simpa [Char.isDigit, Char.le_def] using hc
  have hle : c.toNat ≤ '9'.toNat := UInt32.le_iff_toNat_le.1 hrange.2
  have hlt : c.toNat - '0'.toNat < 10 := by
    have h9 : '9'.toNat = 57 := rfl
    have h0 : '0'.toNat = 48 := rfl
    omega
  simp only [digitVal, if_pos hrange, if_pos hlt]

/-- Decimal digits are read as the library's digit sum reads them. -/
theorem parseDigits_of_isDigit {ds : List Char} (hds : ∀ c ∈ ds, c.isDigit = true) (acc : Nat) :
    parseDigits 10 acc ds = some (Nat.ofDigitChars 10 ds acc) := by
  induction ds generalizing acc with
  | nil => rw [parseDigits, Nat.ofDigitChars_nil]
  | cons c ds ih =>
    obtain ⟨hc, hds⟩ := List.forall_mem_cons.1 hds
    rw [parseDigits, digitVal_of_isDigit hc, Nat.ofDigitChars_cons, Nat.mul_comm]
    exact ih hds _

theorem parseByte_of_parseDigits {base n : Nat} {ds : List Char} (hne : ds ≠ [])
    (h : parseDigits base 0 ds = some n) : parseByte base ds = if n < 256 then some (BitVec.ofNat 8 n) else none := by
  cases ds with
  | nil => exact absurd rfl hne
  | cons c ds => simp [parseByte, h]

/-- A byte parses back from its decimal digits. -/
theorem parseByte_toDigits (v : Byte) : parseByte 10 (Nat.toDigits 10 v.toNat) = some v := by
  have hdigits : parseDigits 10 0 (Nat.toDigits 10 v.toNat) = some v.toNat := by
    rw [parseDigits_of_isDigit fun c hc => Nat.isDigit_of_mem_toDigits (by omega) le_rfl hc,
      Nat.ofDigitChars_toDigits (by omega) le_rfl]
  rw [parseByte_of_parseDigits Nat.toDigits_ne_nil hdigits, if_pos v.isLt, BitVec.ofNat_toNat, BitVec.setWidth_eq]

/-- Decimal digits are not read as hexadecimal or binary: neither `x` nor `b` is a digit. -/
theorem parseImm_toDigits (v : Byte) : parseImm (Nat.toDigits 10 v.toNat) = some v := by
  have hdigit {c : Char} (hc : c ∈ Nat.toDigits 10 v.toNat) : c.isDigit = true :=
    Nat.isDigit_of_mem_toDigits (by omega) le_rfl hc
  unfold parseImm
  split
  next ds heq => exact absurd rfl (isDigit_ne (d := 'x') (hdigit (by simp [heq])) rfl)
  next ds heq => exact absurd rfl (isDigit_ne (d := 'b') (hdigit (by simp [heq])) rfl)
  next => exact parseByte_toDigits v

/-! ### A line -/

/-- No mnemonic of the table is empty or holds a blank. -/
theorem noBlank_of_rowNamed {m : List Char} {r : OpRow} (h : rowNamed m = some r) : NoBlank m ∧ m ≠ [] := by
  have hrows : ∀ r ∈ handlerTable ++ [hltRow],
      (∀ c ∈ r.mnemonic.toList, isBlank c = false) ∧ r.mnemonic.toList ≠ [] := by
    simp [handlerTable, hltRow, isBlank]
  have hname : r.mnemonic.toList = m := by simpa using List.find?_some h
  rw [← hname]
  exact hrows r (List.mem_of_find?_eq_some h)

/-- A line is its mnemonic up to the first blank, and the operands after it. -/
theorem parseAsm_append {m u : List Char} {r : OpRow} (hrow : rowNamed m = some r) (hu : NoBlank u)
    (hne' : u ≠ []) : parseAsm (m ++ ' ' :: u) = parseOperands r (' ' :: u) := by
  obtain ⟨hm, hne⟩ := noBlank_of_rowNamed hrow
  have htrim : trimBlanks (m ++ ' ' :: u) = m ++ ' ' :: u := by
    simpa using trimBlanks_append hm hu hne hne' [' ']
  have hmnemonic : (m ++ ' ' :: u).takeWhile (fun c => !isBlank c) = m := by
    rw [List.takeWhile_append_of_pos (by simpa [NoBlank] using hm), List.takeWhile_cons_of_neg (by decide),
      List.append_nil]
  simp only [parseAsm, htrim, hmnemonic, hrow, List.drop_left]
  rfl

/-- The blank after the mnemonic is trimmed off the first operand, which holds no comma. -/
theorem operands_one {t : List Char} (ht : IsOperandText t) : (splitCommas (' ' :: t)).map trimBlanks = [t] := by
  have hcomma : ',' ∉ ' ' :: t := List.not_mem_cons_of_ne_of_not_mem (by decide) ht.noComma
  rw [splitCommas_of_notMem hcomma, List.map_singleton, trimBlanks_blank_cons, trimBlanks_of_noBlank ht.noBlank]

/-- The comma is the only one, so it parts the two operands. -/
theorem operands_two {t u : List Char} (ht : IsOperandText t) (hu : IsOperandText u) :
    (splitCommas (' ' :: (t ++ ',' :: u))).map trimBlanks = [t, u] := by
  have hcomma : ',' ∉ ' ' :: t := List.not_mem_cons_of_ne_of_not_mem (by decide) ht.noComma
  rw [← List.cons_append, splitCommas_append_comma hcomma, splitCommas_of_notMem hu.noComma, List.map_cons,
    List.map_singleton, trimBlanks_blank_cons, trimBlanks_of_noBlank ht.noBlank, trimBlanks_of_noBlank hu.noBlank]

section Formats

variable {m : List Char} {r : OpRow} {a b : Byte}

/-- A printed line of format R, of a row whose mnemonic is `m`. -/
theorem parseAsm_formatR (hrow : rowNamed m = some r) (hf : r.format = .r)
    (ha : a.toNat < 8) : parseAsm (m ++ ' ' :: printReg a) = some (r.build a 0#8) := by
  have ht := isOperandText_printReg a
  rw [parseAsm_append hrow ht.noBlank ht.ne_nil, parseOperands, hf, operands_one ht]
  simp only [parseReg_printReg ha, Option.map_some]

/-- A printed line of format RR. -/
theorem parseAsm_formatRR (hrow : rowNamed m = some r) (hf : r.format = .rr)
    (ha : a.toNat < 8) (hb : b.toNat < 8) :
    parseAsm (m ++ ' ' :: (printReg a ++ ',' :: printReg b)) = some (r.build a b) := by
  have ht := isOperandText_printReg a
  have hu := isOperandText_printReg b
  rw [parseAsm_append hrow (ht.noBlank.append (hu.noBlank.cons rfl)) (by simp), parseOperands, hf,
    operands_two ht hu]
  simp only [parseReg_printReg ha, parseReg_printReg hb, Option.map_some, Option.bind_some]

/-- A printed line of format RI. -/
theorem parseAsm_formatRI (hrow : rowNamed m = some r) (hf : r.format = .ri)
    (ha : a.toNat < 8) :
    parseAsm (m ++ ' ' :: (printReg a ++ ',' :: Nat.toDigits 10 b.toNat)) = some (r.build a b) := by
  have ht := isOperandText_printReg a
  have hu := isOperandText_toDigits b.toNat
  rw [parseAsm_append hrow (ht.noBlank.append (hu.noBlank.cons rfl)) (by simp), parseOperands, hf,
    operands_two ht hu]
  simp only [parseReg_printReg ha, parseImm_toDigits, Option.map_some, Option.bind_some]

end Formats

/-- A well-formed instruction parses back from its line, by its format. -/
theorem parseAsm_printAsm {i : Instr} (hwf : i.wf = true) : parseAsm (printAsm i) = some i := by
  have hreg {b : Byte} (hb : b ∈ i.regOperands) : b.toNat < 8 := toNat_lt_of_wf hwf hb
  cases i with
  | ldi a imm => exact parseAsm_formatRI (m := "LDI".toList) rfl rfl (hreg List.mem_cons_self)
  | prn a => exact parseAsm_formatR (m := "PRN".toList) rfl rfl (hreg List.mem_cons_self)
  | mul a b =>
    exact parseAsm_formatRR (m := "MUL".toList) rfl rfl (hreg List.mem_cons_self) (hreg (List.mem_pair.2 (.inr rfl)))
  | push a => exact parseAsm_formatR (m := "PUSH".toList) rfl rfl (hreg List.mem_cons_self)
  | pop a => exact parseAsm_formatR (m := "POP".toList) rfl rfl (hreg List.mem_cons_self)
  | cmp a b =>
    exact parseAsm_formatRR (m := "CMP".toList) rfl rfl (hreg List.mem_cons_self) (hreg (List.mem_pair.2 (.inr rfl)))
  | jmp a => exact parseAsm_formatR (m := "JMP".toList) rfl rfl (hreg List.mem_cons_self)
  | jeq a => exact parseAsm_formatR (m := "JEQ".toList) rfl rfl (hreg List.mem_cons_self)
  | jne a => exact parseAsm_formatR (m := "JNE".toList) rfl rfl (hreg List.mem_cons_self)
  | pra a => exact parseAsm_formatR (m := "PRA".toList) rfl rfl (hreg List.mem_cons_self)
  | hlt => decide

/-- Settles O53: `parseAsm_printAsm`, and `assemble` encodes what is parsed. -/
theorem assemblerRoundTrip : Obligations.AssemblerRoundTrip := by
  intro i hwf
  have hparse := parseAsm_printAsm hwf
  exact ⟨hparse, by rw [assemble, hparse, Option.map_some]⟩

/-- Settles O52: each line evaluated. -/
theorem assemblerExamples : Obligations.AssemblerExamples := by
  unfold Obligations.AssemblerExamples
  decide

end Sys2Proof.Machine
end
